-- ==== Sys2Proof/Word.lean ====
section
/-! DEFINITION. The word types of the MMIO decoder (00_scope.md R10). -/

namespace Sys2Proof

/-- R10: an 8-bit unsigned value. -/
abbrev Byte := BitVec 8

/-- R10, R40: an `AW`-bit unsigned address, `AW = 32` for this hardware (92_eei_decisions.md D1).
Sums and comparisons of addresses are made in `Nat` on `toNat` and never wrap. -/
abbrev Addr := BitVec 32

end Sys2Proof
end

