-- ==== Sys2Proof/Config.lean ====
section
/-! DEFINITION. What an implementation fixes (00_scope.md R8), the contract of the two external streams
(10_state.md R26, R27), and the free values: opaque constants of which nothing can be proved. -/

namespace Sys2Proof

/-- `bsBacked : Addr -> {1,2,4} -> Bool` of R8 as plain data: the flag is `dflt` everywhere except at the
listed (address, size) pairs, where it is the opposite. The domain is finite, so every such function has
this form (log 11; `Laws.backedMap_represents`). -/
structure BackedMap where
  dflt : Bool
  exceptions : List (Addr × Nat)
deriving DecidableEq, Repr

/-- R8, R22: the configuration record, latched at construction and never written by an operation. -/
structure Cfg where
  /-- `STDIN_ADDR`, the first address of the stdin device word. -/
  stdinAddr : Addr
  /-- `STDOUT_ADDR`, the first address of the stdout device word. -/
  stdoutAddr : Addr
  /-- `MEM_SIZE`, the byte size of the backing store; `AW + 1` bits, so that it holds `2^AW`. -/
  memSize : BitVec 33
  /-- `bsBacked`, the backing store's BackedFlag for each address and size. -/
  backed : BackedMap
deriving DecidableEq, Repr

/-- R65, R151: a stream's fault value, opaque, of a length the stream defines (log 21). -/
abbrev FaultValue := List Byte

/-- R26, R90, R93: one answer of the input stream to `Read` of a 1-byte buffer: it returns
`(count, fault)`, with `byte = some v` for count 1 and `none` for count 0, or it never returns. -/
inductive ReadAnswer where
  | returned (byte : Option Byte) (fault : Option FaultValue)
  | never
deriving DecidableEq, Repr, Inhabited

/-- R27, R91, R93: one answer of the output stream to `Write` of a 1-byte buffer: it returns
`(count, fault)`, with `taken` saying that count is 1, or it never returns. -/
inductive WriteAnswer where
  | returned (taken : Bool) (fault : Option FaultValue)
  | never
deriving DecidableEq, Repr, Inhabited

/-- One completed stream call with its answer, an entry of the history of R26. -/
inductive StreamCall where
  | read (byte : Option Byte) (fault : Option FaultValue)
  | write (v : Byte) (taken : Bool) (fault : Option FaultValue)
deriving DecidableEq, Repr

/-- R181: the byte at an address that the session setup did not load: an unconstrained draw, one for
each address, fixed for the session (log 2). -/
opaque Config.unloadedByte : Nat → Byte

/-- R90, D10: the byte `StreamIn` answers when the stream returns count 0 and no fault: an unconstrained
draw, taken afresh for each call because the history it is applied to grows (log 3). -/
opaque Config.shortReadByte : List StreamCall → Byte

/-- R26: the input stream's answer to a call for which `State.inp` lists none; it may depend on the whole
history of calls (log 4). -/
opaque Config.readOracle : List StreamCall → ReadAnswer

/-- R27: the output stream's answer to a call for which `State.outp` lists none; it may depend on the
whole history of calls and on the byte (log 4). -/
opaque Config.writeOracle : List StreamCall → Byte → WriteAnswer

/-- PRESUMED (log 1), unsafe: the CS 241 platform's parameters, which the spec gives as informative
defaults from general knowledge (D2, D26, G3, G4). The parameters are OPEN; only `State.reset` uses these. -/
def Config.cs241 : Cfg where
  stdinAddr := 0xFFFF0004#32
  stdoutAddr := 0xFFFF000C#32
  memSize := 0x01000000#33
  backed := { dflt := true, exceptions := [] }

end Sys2Proof
end

