-- ==== Sys2Proof/Syntax.lean ====
section
/-! DEFINITION. The five operations (30_encoding.md R63, one constructor for each row of
spec/opcode_table.json) and the transaction that carries a request (R60). -/

namespace Sys2Proof

/-- R3, R63: the operations of the memory contract, operands in the order of the source's signatures. -/
inductive Instr where
  /-- `READ_BYTE`: `ReadOneByte(index)`, R100. -/
  | readByte (index : Addr)
  /-- `READ_RAW`: `ReadRaw(start, numBytes)`, R101. -/
  | readRaw (start : Addr) (numBytes : Nat)
  /-- `WRITE_BYTE`: `WriteOneByte(val, index)`, R120. -/
  | writeByte (val : Byte) (index : Addr)
  /-- `WRITE_RAW`: `WriteRaw(data, start)`, R121. -/
  | writeRaw (data : List Byte) (start : Addr)
  /-- `SIZE`: `Size()`, R140. -/
  | size
deriving DecidableEq, Repr

/-- R60: a request on the request port, a transaction of three parts sent in this order. The header and
the address are words, not bytes: no rule gives them a byte order (log 10). -/
structure Transaction where
  header : BitVec 32
  addr : Addr
  payload : List Byte
deriving DecidableEq, Repr

end Sys2Proof
end

