-- ==== Sys2Proof/Machine/State.lean ====
section
/-! DEFINITION. The session state S = (cfg, mem, inp, out, views) of 10_state.md R23, the environment the
block talks to, and why a run stops. -/

namespace Sys2Proof.Machine

/-- R23: the backing store's contents, (address, byte) pairs in strictly rising order of address. An
address that is not listed has no value here; what it reads as is `State.byteAt` (R181, log 2). -/
abbrev Memory := List Host.Cell

/-- R29: a live view `V(start, len)` into the backing store. -/
structure View where
  start : Addr
  len : Nat
deriving DecidableEq, Repr

/-- R29, R30: a result buffer the caller holds: a live view, or an independent copy of bytes. -/
inductive Buffer where
  | live (v : View)
  | copy (d : List Byte)
deriving DecidableEq, Repr

/-- R150, R152: the record of an address fault. -/
structure AccessInfo where
  location : Addr
  numBytes : Nat
  wasRead : Bool
deriving DecidableEq, Repr

/-- The fault kinds of 60_exceptions.md. They end one operation and go to the caller as its response
(R157); they do not stop the machine (R158). -/
inductive BlockFault where
  /-- R150: raised by `READ_RAW` and `WRITE_RAW` on an invalid or crossing span. -/
  | accessViolation (i : AccessInfo)
  /-- R151: the stream's own fault value, unchanged. -/
  | streamFault (f : FaultValue)
  /-- R152: the backing store's range fault, passed through. -/
  | backingStoreFault (i : AccessInfo)
deriving DecidableEq, Repr

/-- R65: what a request is answered with. -/
inductive Response where
  /-- `OK` of `READ_BYTE`. -/
  | byte (v : Byte)
  /-- `OK` of `READ_RAW`, with the BackedFlag (R28). -/
  | raw (data : List Byte) (backed : Bool)
  /-- `OK` of `WRITE_BYTE` and `WRITE_RAW`. -/
  | done
  /-- `OK` of `SIZE`. -/
  | size (n : Nat)
  /-- A fault, reported once to the immediate caller (R157). -/
  | fault (f : BlockFault)
  /-- R64, R153: the answer to a reserved `op`. -/
  | illegalRequest
deriving DecidableEq, Repr

/-- What the caller does at the block's boundary; one is consumed by each step. -/
inductive CallerAction where
  /-- R60: a request on the request port. -/
  | request (t : Transaction)
  /-- R29, R30, R68 `VW r, k, v`: the caller writes `v` into element `k` of the `r`-th result buffer. -/
  | bufferWrite (r k : Nat) (v : Byte)
  /-- R51, R165: requests of two threads in flight at once, which a model refuses. -/
  | concurrent (first second : Transaction)
deriving DecidableEq, Repr

/-- One session of the block (R23) and its environment. -/
structure State where
  /-- R22: the configuration registers. -/
  cfg : Cfg
  /-- R23, R24: the backing store's contents. -/
  mem : Memory
  /-- R26: the input stream's answers to the coming calls; after them `Config.readOracle` answers. -/
  inp : List ReadAnswer
  /-- R27: the bytes the output stream has taken, oldest first. -/
  out : List Byte
  /-- R29: the live backed result views, without repeats. -/
  views : List View
  /-- The model's own: the output stream's answers to the coming calls; then `Config.writeOracle`. -/
  outp : List WriteAnswer
  /-- The model's own: the history of stream calls (R26), oldest first. -/
  calls : List StreamCall
  /-- The model's own: the caller's pending actions, the next one first. -/
  port : List CallerAction
  /-- The model's own: every response delivered, oldest first (R65, R158). -/
  responses : List Response
  /-- The model's own: the caller's result buffers, one for each successful `READ_RAW`, oldest first. -/
  buffers : List Buffer
deriving DecidableEq, Repr

/-- Why a run of the MODEL stops without a response. These are not the block's faults (`BlockFault`). -/
inductive Fault where
  /-- R93, R186: raised by an operation that reads the input stream when the stream never answers: a
  stuck state, with no further step. Safe: the hardware does nothing more either. -/
  | stuckOnInput
  /-- R93, R186: raised by an operation that writes the output stream when the stream never answers: a
  stuck state, with no further step. Safe: the hardware does nothing more either. -/
  | stuckOnOutput
deriving DecidableEq, Repr

/-- What the model refuses. -/
inductive Refusal where
  /-- Raised by an arm of `exec` whose instruction has no meaning yet; none has. Safe. -/
  | notModelled (mnemonic : String)
  /-- R64, R153: raised by `step` on a request with a reserved `op`; "A model treats it as a refusal".
  Safe: nothing is performed, and `Refusal.response` gives the ILLEGAL_REQUEST answer (log 6). -/
  | illegalRequest (op : Byte)
  /-- R60: raised by `step` on a transaction whose payload has not the length of its header. Safe (log 7). -/
  | malformedRequest (expected got : Nat)
  /-- R9, U12: raised by `construct` and `step` on a configuration that breaks a constraint. Safe. -/
  | illFormedConfig
  /-- R24, R32: raised by `construct` on initial memory outside the backing store. Safe (log 15). -/
  | illFormedMemory
  /-- R51, R165, U11: raised by `step` on use from several threads. Safe (log 14). -/
  | concurrentUse
  /-- R29: raised by `step` on a caller write that names no element of a result buffer. Safe (log 13). -/
  | noSuchBufferElement (r k : Nat)
deriving DecidableEq, Repr

/-- R32, R180: construction with the CS 241 platform's parameters (PRESUMED, log 1), nothing loaded into
the backing store, and stream behaviour left to the oracles. -/
def State.reset : State where
  cfg := Config.cs241
  mem := []
  inp := []
  out := []
  views := []
  outp := []
  calls := []
  port := []
  responses := []
  buffers := []

end Sys2Proof.Machine
end

