-- ==== Sys2Proof/Machine/Operands.lean ====
section
/-! DEFINITION. Address spans: configuration constraints (00_scope.md R9), span validity (20_memory.md R42)
and the BoundaryClassifier (40_classifier.md). All arithmetic is in `Nat` and never wraps (R10). -/

namespace Sys2Proof.Machine

/-- R9: the four constraints of a well-formed configuration. -/
abbrev CfgOk (c : Cfg) : Prop :=
  (c.stdinAddr.toNat % 4 = 0 ∧ c.stdoutAddr.toNat % 4 = 0) ∧
  (c.stdinAddr.toNat + 3 < 2 ^ 32 ∧ c.stdoutAddr.toNat + 3 < 2 ^ 32) ∧
  c.stdinAddr ≠ c.stdoutAddr ∧
  c.memSize.toNat ≤ 2 ^ 32

/-- R42: the valid spans `(s, n)`. -/
abbrev ValidSpan (s n : Nat) : Prop :=
  n = 1 ∨ (n = 2 ∧ s % 2 = 0) ∨ (n = 4 ∧ s % 4 = 0)

/-- R67, R80: the classifier's closed tagged variant. -/
inductive Tag where
  | crossesBoundary
  | firstIsBoundary
  | laterBytesInBoundary
  | outsideBoundary
deriving DecidableEq, Repr

/-- R67: the 2-bit tag. -/
def tagBits : Tag → BitVec 2
  | .crossesBoundary => 0b00#2
  | .firstIsBoundary => 0b01#2
  | .laterBytesInBoundary => 0b10#2
  | .outsideBoundary => 0b11#2

/-- R80: the boundary classifier, for the span `(s, n)` and the device word at `b`; crossing is tested
first (90_conflicts.md C5). -/
def classify (s n b : Nat) : Tag :=
  if (s < b ∧ s + n > b) ∨ (b ≤ s ∧ s ≤ b + 3 ∧ s + n > b + 4) then .crossesBoundary
  else if s = b then .firstIsBoundary
  else if b < s ∧ s ≤ b + 3 then .laterBytesInBoundary
  else .outsideBoundary

/-- R16, R100, R120: the three tail bytes `b+1 .. b+3` of the device word at `b`. -/
abbrev InTail (b i : Nat) : Prop := b < i ∧ i ≤ b + 3

/-- R16: the four bytes `b .. b+3` of the device word at `b`. -/
abbrev InWord (b a : Nat) : Prop := b ≤ a ∧ a ≤ b + 3

/-- R11: the buffer of `n` zero bytes. -/
def zeros (n : Nat) : List Byte := List.replicate n 0#8

end Sys2Proof.Machine
end

