-- ==== Sys2Proof/Machine/Flags.lean ====
section
/-! DEFINITION. The BackedFlag, the block's only flag (10_state.md R28): never stored, returned with each
`READ_RAW` result. -/

namespace Sys2Proof.Machine

/-- R8, R24: the backing store's own flag for a plain read of `n` bytes at `a`. -/
def bsBacked (c : Cfg) (a : Addr) (n : Nat) : Bool :=
  if (a, n) ∈ c.backed.exceptions then !c.backed.dflt else c.backed.dflt

/-- R101: the flag of a plain read of a span outside the stdin word, from the flag `bk` the backing store
returned: forced to false when the span touches the stdout word. -/
def plainReadFlag (c : Cfg) (s n : Nat) (bk : Bool) : Bool :=
  if classify s n c.stdoutAddr.toNat = .outsideBoundary then bk else false

end Sys2Proof.Machine
end

