-- ==== Sys2Proof/Machine/Ops.lean ====
section
/-! DEFINITION. The named operations over the session state: the backing store (10_state.md R24), the
DeviceRedirector (41_redirector.md), delivering a response and reporting a fault (60_exceptions.md R157),
result buffers (10_state.md R29, R30) and construction (70_reset_and_hazards.md R180 to R183). -/

namespace Sys2Proof.Machine

/-! ### Backing store contents -/

/-- The byte listed at an address, if one is. -/
def memByte? : Memory → Nat → Option Byte
  | [], _ => none
  | c :: rest, a => if c.1 = a then some c.2 else memByte? rest a

/-- Write one byte, keeping the addresses strictly rising. -/
def memPut : Memory → Nat → Byte → Memory
  | [], a, v => [(a, v)]
  | c :: rest, a, v =>
    if a < c.1 then (a, v) :: c :: rest
    else if a = c.1 then (a, v) :: rest
    else c :: memPut rest a v

/-- R24: write a buffer, element `k` to address `a + k` (R46). -/
def memPutAll : Memory → Nat → List Byte → Memory
  | m, _, [] => m
  | m, a, v :: rest => memPutAll (memPut m a v) (a + 1) rest

/-- The canonical form: strictly rising addresses. An unlisted address has no value, so no entry can
equal what one reads as. -/
abbrev Memory.wf (m : Memory) : Prop := m.Pairwise (fun c d => c.1 < d.1)

/-- R23, R25: every listed address lies in `[0, size)`. -/
abbrev MemInRange (m : Memory) (size : Nat) : Prop := ∀ c ∈ m, c.1 < size

/-- R23, R181: the byte of the backing store at an address: the listed one, else the unconstrained draw
for an address the setup did not load. -/
def State.byteAt (s : State) (a : Nat) : Byte := (memByte? s.mem a).getD (Config.unloadedByte a)

/-- R46: the bytes at `a .. a+n-1`, element `k` at address `a + k`. -/
def State.bytesAt (s : State) (a n : Nat) : List Byte := (List.range n).map (fun k => s.byteAt (a + k))

/-- The state with one byte of the backing store written. -/
def State.putByte (s : State) (a : Nat) (v : Byte) : State := { s with mem := memPut s.mem a v }

/-- The state with a buffer written into the backing store. -/
def State.putBytes (s : State) (a : Nat) (d : List Byte) : State := { s with mem := memPutAll s.mem a d }

/-! ### The backing store's contract (R24) -/

/-- R24 `BS.ReadOneByte`. -/
def bsReadOneByte (s : State) (a : Addr) : Except AccessInfo Byte :=
  if a.toNat < s.cfg.memSize.toNat then .ok (s.byteAt a.toNat)
  else .error { location := a, numBytes := 1, wasRead := true }

/-- R24 `BS.WriteOneByte`. -/
def bsWriteOneByte (s : State) (v : Byte) (a : Addr) : Except AccessInfo State :=
  if a.toNat < s.cfg.memSize.toNat then .ok (s.putByte a.toNat v)
  else .error { location := a, numBytes := 1, wasRead := false }

/-- R24 `BS.ReadRaw`: the bytes and the backing store's own flag. -/
def bsReadRaw (s : State) (a : Addr) (n : Nat) : Except AccessInfo (List Byte × Bool) :=
  if a.toNat + n ≤ s.cfg.memSize.toNat then .ok (s.bytesAt a.toNat n, bsBacked s.cfg a n)
  else .error { location := a, numBytes := n, wasRead := true }

/-- R24 `BS.WriteRaw`: all bytes, or none on a fault (R48). -/
def bsWriteRaw (s : State) (d : List Byte) (a : Addr) : Except AccessInfo State :=
  if a.toNat + d.length ≤ s.cfg.memSize.toNat then .ok (s.putBytes a.toNat d)
  else .error { location := a, numBytes := d.length, wasRead := false }

/-- R24 `BS.Size`. -/
def bsSize (s : State) : Nat := s.cfg.memSize.toNat

/-! ### The DeviceRedirector -/

/-- How a stream primitive ends (R14, R90, R91): `Ok` with the state after, a stream fault with the state
after, or not at all (R93). -/
inductive StreamResult (α : Type) where
  | ok (v : α) (t : State)
  | fault (f : FaultValue) (t : State)
  | stuck

/-- R26: the input stream's answer to the next call. -/
def State.nextRead (s : State) : ReadAnswer :=
  match s.inp with
  | a :: _ => a
  | [] => Config.readOracle s.calls

/-- R27: the output stream's answer to the next call, which gives it the byte `v`. -/
def State.nextWrite (s : State) (v : Byte) : WriteAnswer :=
  match s.outp with
  | a :: _ => a
  | [] => Config.writeOracle s.calls v

/-- The state after one call on the input stream: the stream has advanced, the call is on record. -/
def State.afterRead (s : State) (byte : Option Byte) (fault : Option FaultValue) : State :=
  { s with inp := s.inp.tail, calls := s.calls ++ [.read byte fault] }

/-- R91: the state after one call on the output stream: the byte is in `out` only if the stream took it. -/
def State.afterWrite (s : State) (v : Byte) (taken : Bool) (fault : Option FaultValue) : State :=
  { s with
    outp := s.outp.tail
    calls := s.calls ++ [.write v taken fault]
    out := if taken then s.out ++ [v] else s.out }

/-- R90: exactly one call; a fault wins over the count; count 0 without a fault gives an unconstrained
byte (D10). -/
def streamIn (s : State) : StreamResult Byte :=
  match s.nextRead with
  | .never => .stuck
  | .returned byte fault =>
    match fault, byte with
    | some f, _ => .fault f (s.afterRead byte fault)
    | none, some v => .ok v (s.afterRead byte fault)
    | none, none => .ok (Config.shortReadByte s.calls) (s.afterRead byte fault)

/-- R91: exactly one call; a fault is propagated; count 0 without a fault is success (D12). -/
def streamOut (v : Byte) (s : State) : StreamResult Unit :=
  match s.nextWrite v with
  | .never => .stuck
  | .returned taken fault =>
    match fault with
    | some f => .fault f (s.afterWrite v taken fault)
    | none => .ok () (s.afterWrite v taken fault)

/-! ### Responses -/

/-- R65: the request's one response goes to its caller. -/
def State.respond (s : State) (r : Response) : State := { s with responses := s.responses ++ [r] }

/-- R157, R158: taking a fault: the operation ends, its immediate caller gets the fault as the response,
nothing is saved and the next request is served as if it had not happened. There is no return from it
(R159). -/
def State.reportFault (s : State) (f : BlockFault) : State := s.respond (.fault f)

/-- The state with one more result buffer in the caller's hands. -/
def State.giveBuffer (s : State) (b : Buffer) : State := { s with buffers := s.buffers ++ [b] }

/-- R29: the set of live views with one more. -/
def State.addView (s : State) (v : View) : State :=
  { s with views := if v ∈ s.views then s.views else s.views ++ [v] }

/-- R30, R101: a result that is a fresh buffer, not backed. -/
def State.respondCopy (s : State) (d : List Byte) : State :=
  (s.giveBuffer (.copy d)).respond (.raw d false)

/-- R29, R101: a result that is a live view of the backing store. -/
def State.respondView (s : State) (v : View) (d : List Byte) : State :=
  ((s.addView v).giveBuffer (.live v)).respond (.raw d true)

/-- A plain read's result, a live view or a copy by its BackedFlag (R29, R30). -/
def State.respondRaw (s : State) (v : View) (d : List Byte) (flag : Bool) : State :=
  if flag then s.respondView v d else s.respondCopy d

/-! ### The caller's result buffers -/

/-- R29, R30: what the caller sees in element `k` of its `r`-th result buffer: the backing store's byte at
the time it is looked at, or the copy's. -/
def State.bufferElement (s : State) (r k : Nat) : Option Byte :=
  match s.buffers[r]? with
  | some (.live v) => if k < v.len then some (s.byteAt (v.start.toNat + k)) else none
  | some (.copy d) => d[k]?
  | none => none

/-- R29, R30: `ViewWrite`. Into a live view it writes the backing store at once, unclassified; into a copy
it changes only the caller's buffer. It makes no response: it is no request (R68). -/
def bufferWrite (r k : Nat) (v : Byte) (s : State) : Host.Outcome State Fault Refusal :=
  match s.buffers[r]? with
  | some (.live w) =>
    if w ∈ s.views ∧ k < w.len then .next (s.putByte (w.start.toNat + k) v)
    else .refused (.noSuchBufferElement r k)
  | some (.copy d) =>
    if k < d.length then .next { s with buffers := s.buffers.set r (.copy (d.set k v)) }
    else .refused (.noSuchBufferElement r k)
  | none => .refused (.noSuchBufferElement r k)

/-! ### Construction -/

/-- R182: the initial backing store contents that a setup leaves which loads `image` at offset 0. -/
def memOfImage (image : List Byte) : Memory := memPutAll [] 0 image

/-- R32, R180, R183: the only reset. The configuration must be well formed (R9) and the loaded contents
must lie in the backing store. -/
def construct (c : Cfg) (m : Memory) (inp : List ReadAnswer) (outp : List WriteAnswer) :
    Host.Outcome State Fault Refusal :=
  if ¬ CfgOk c then .refused .illFormedConfig
  else if ¬ (Memory.wf m ∧ MemInRange m c.memSize.toNat) then .refused .illFormedMemory
  else .next
    { cfg := c, mem := m, inp := inp, out := [], views := [], outp := outp
      calls := [], port := [], responses := [], buffers := [] }

end Sys2Proof.Machine
end

