-- ==== Sys2Proof/Machine/ReadPath.lean ====
section
/-! DEFINITION. The read path (42_read_path.md): `READ_BYTE` and `READ_RAW`. -/

namespace Sys2Proof.Machine

/-- R100 `ReadOneByte`. The stdout word is not tested and the classifier is not called (R105). -/
def execReadByte (i : Addr) (s : State) : Host.Outcome State Fault Refusal :=
  if i = s.cfg.stdinAddr then
    match streamIn s with
    | .ok v t => .next (t.respond (.byte v))
    | .fault f t => .next (t.reportFault (.streamFault f))
    | .stuck => .fault .stuckOnInput
  else if InTail s.cfg.stdinAddr.toNat i.toNat then .next (s.respond (.byte 0x00#8))
  else
    match bsReadOneByte s i with
    | .ok v => .next (s.respond (.byte v))
    | .error f => .next (s.reportFault (.backingStoreFault f))

/-- R101 `ReadRaw`. -/
def execReadRaw (a : Addr) (n : Nat) (s : State) : Host.Outcome State Fault Refusal :=
  if ¬ ValidSpan a.toNat n then
    .next (s.reportFault (.accessViolation { location := a, numBytes := n, wasRead := true }))
  else
    match classify a.toNat n s.cfg.stdinAddr.toNat with
    | .crossesBoundary =>
      .next (s.reportFault (.accessViolation { location := a, numBytes := n, wasRead := true }))
    | .firstIsBoundary =>
      match streamIn s with
      | .ok v t => .next (t.respondCopy ((zeros n).set 0 v))
      | .fault f t => .next (t.reportFault (.streamFault f))
      | .stuck => .fault .stuckOnInput
    | .laterBytesInBoundary => .next (s.respondCopy (zeros n))
    | .outsideBoundary =>
      match bsReadRaw s a n with
      | .ok (d, bk) =>
        .next (s.respondRaw { start := a, len := n } d (plainReadFlag s.cfg a.toNat n bk))
      | .error f => .next (s.reportFault (.backingStoreFault f))

end Sys2Proof.Machine
end

