-- ==== Sys2Proof/Machine/Size.lean ====
section
/-! DEFINITION. `SIZE` (44_size.md). -/

namespace Sys2Proof.Machine

/-- R140 `Size`: the backing store's answer, unchanged. -/
def execSize (s : State) : Host.Outcome State Fault Refusal :=
  .next (s.respond (.size (bsSize s)))

end Sys2Proof.Machine
end

