-- ==== Sys2Proof/Machine/WritePath.lean ====
section
/-! DEFINITION. The write path (43_write_path.md): `WRITE_BYTE` and `WRITE_RAW`. -/

namespace Sys2Proof.Machine

/-- R120 `WriteOneByte`. The stdin word is not tested and the classifier is not called (R124). -/
def execWriteByte (v : Byte) (i : Addr) (s : State) : Host.Outcome State Fault Refusal :=
  if i = s.cfg.stdoutAddr then
    match streamOut v s with
    | .ok _ t => .next (t.respond .done)
    | .fault f t => .next (t.reportFault (.streamFault f))
    | .stuck => .fault .stuckOnOutput
  else if InTail s.cfg.stdoutAddr.toNat i.toNat then .next (s.respond .done)
  else
    match bsWriteOneByte s v i with
    | .ok t => .next (t.respond .done)
    | .error f => .next (s.reportFault (.backingStoreFault f))

/-- R121: the last element of `data`. Only a valid span reaches the use, so the list is not empty there. -/
def lastByte (d : List Byte) : Byte := d.getLastD 0#8

/-- R121 `WriteRaw`, §4.3's text literally (90_conflicts.md C2, log 17). -/
def execWriteRaw (d : List Byte) (a : Addr) (s : State) : Host.Outcome State Fault Refusal :=
  if ¬ ValidSpan a.toNat d.length then
    .next (s.reportFault (.accessViolation { location := a, numBytes := d.length, wasRead := false }))
  else if classify a.toNat d.length s.cfg.stdoutAddr.toNat = .crossesBoundary then
    .next (s.reportFault (.accessViolation { location := a, numBytes := d.length, wasRead := false }))
  else if a.toNat + d.length - 1 = s.cfg.stdoutAddr.toNat + 3 then
    match streamOut (lastByte d) s with
    | .ok _ t => .next (t.respond .done)
    | .fault f t => .next (t.reportFault (.streamFault f))
    | .stuck => .fault .stuckOnOutput
  else
    match bsWriteRaw s d a with
    | .ok t => .next (t.respond .done)
    | .error f => .next (s.reportFault (.backingStoreFault f))

end Sys2Proof.Machine
end

