-- ==== Sys2Proof/Machine/Dispatch.lean ====
section
/-! DEFINITION. One arm for each operation of the opcode table (30_encoding.md R63). -/

namespace Sys2Proof.Machine

def exec (i : Instr) (s : State) : Host.Outcome State Fault Refusal :=
  match i with
  | .readByte index => Sys2Proof.Machine.execReadByte index s
  | .readRaw start numBytes => Sys2Proof.Machine.execReadRaw start numBytes s
  | .writeByte val index => Sys2Proof.Machine.execWriteByte val index s
  | .writeRaw data start => Sys2Proof.Machine.execWriteRaw data start s
  | .size => Sys2Proof.Machine.execSize s

end Sys2Proof.Machine
end

