-- ==== Sys2Proof/WellFormed.lean ====
section
/-! DEFINITION. Which operations the request format can carry (30_encoding.md R61). -/

namespace Sys2Proof

/-- R61: a length is an unsigned 24-bit value; "Lengths `>= 2^24` cannot be encoded". Nothing else is
restricted: an invalid span is a well-formed request that answers `AccessViolation`. -/
def Instr.wellFormed : Instr → Bool
  | .readByte _ => true
  | .readRaw _ n => decide (n < 2 ^ 24)
  | .writeByte _ _ => true
  | .writeRaw d _ => decide (d.length < 2 ^ 24)
  | .size => true

end Sys2Proof
end

