-- ==== Sys2Proof/Decode.lean ====
section
/-! DEFINITION. Decoding a transaction (30_encoding.md R60 to R64) and the encoder, from the same tables. -/

namespace Sys2Proof

/-- R60: header bits `[7:0]`. -/
def headerOp (header : BitVec 32) : BitVec 8 := header.extractLsb' 0 8

/-- R60, R61: header bits `[31:8]` as an unsigned `Nat`. -/
def headerLen (header : BitVec 32) : Nat := (header.extractLsb' 8 24).toNat

/-- R60: a header with the given `len` and `op`. -/
def makeHeader (len : Nat) (op : BitVec 8) : BitVec 32 := (BitVec.ofNat 24 len ++ op : BitVec (24 + 8))

/-- R62: how many payload bytes follow, known from the header alone. A reserved `op` is not performed
and has no payload. -/
def payloadLength (header : BitVec 32) : Nat :=
  if headerOp header = 0x03#8 then 1
  else if headerOp header = 0x04#8 then headerLen header
  else 0

/-- R62: the length in bytes of the whole request. -/
def requestLength (header : BitVec 32) : Nat := 4 + 4 + payloadLength header

/-- `n` bytes of a number, least significant first. -/
def bytesLE (n v : Nat) : List Byte :=
  match n with
  | 0 => []
  | k + 1 => BitVec.ofNat 8 v :: bytesLE k (v / 256)

/-- Why a transaction is no request of the format. -/
inductive DecodeError where
  /-- R64: `op` is `0x00` or `0x06 .. 0xFF`. -/
  | reservedOp (op : BitVec 8)
  /-- R60: the payload has not exactly the length the header gives it (log 7). -/
  | payloadLength (expected got : Nat)
deriving DecidableEq, Repr

/-- R60, R61, R63, R64: the operation a transaction asks for. Total; `op` is matched in all 8 bits, before
anything else (R155.3); the ignored fields take no part. -/
def decode (t : Transaction) : Except DecodeError Instr :=
  if headerOp t.header = 0x01#8 then
    match t.payload with
    | [] => .ok (.readByte t.addr)
    | p => .error (.payloadLength 0 p.length)
  else if headerOp t.header = 0x02#8 then
    match t.payload with
    | [] => .ok (.readRaw t.addr (headerLen t.header))
    | p => .error (.payloadLength 0 p.length)
  else if headerOp t.header = 0x03#8 then
    match t.payload with
    | [v] => .ok (.writeByte v t.addr)
    | p => .error (.payloadLength 1 p.length)
  else if headerOp t.header = 0x04#8 then
    if t.payload.length = headerLen t.header then .ok (.writeRaw t.payload t.addr)
    else .error (.payloadLength (headerLen t.header) t.payload.length)
  else if headerOp t.header = 0x05#8 then
    match t.payload with
    | [] => .ok .size
    | p => .error (.payloadLength 0 p.length)
  else .error (.reservedOp (headerOp t.header))

/-- R63: the operation code. -/
def Instr.opcode : Instr → BitVec 8
  | .readByte _ => 0x01#8
  | .readRaw _ _ => 0x02#8
  | .writeByte _ _ => 0x03#8
  | .writeRaw _ _ => 0x04#8
  | .size => 0x05#8

/-- R60: the transaction of a well-formed operation; an ignored field is sent as 0. -/
def encode : Instr → Transaction
  | .readByte i => { header := makeHeader 0 0x01#8, addr := i, payload := [] }
  | .readRaw s n => { header := makeHeader n 0x02#8, addr := s, payload := [] }
  | .writeByte v i => { header := makeHeader 0 0x03#8, addr := i, payload := [v] }
  | .writeRaw d s => { header := makeHeader d.length 0x04#8, addr := s, payload := d }
  | .size => { header := makeHeader 0 0x05#8, addr := 0#32, payload := [] }

/-- A request given as one number: the header in bits 31..0, the address in bits 63..32, then payload
byte `k` in bits `64+8k+7 .. 64+8k`; bits at and above `nbits` are 0 (log 10). -/
def transactionOfWord (nbits w : Nat) : Transaction :=
  let v := w % 2 ^ nbits
  let header := BitVec.ofNat 32 v
  { header := header
    addr := BitVec.ofNat 32 (v / 2 ^ 32)
    payload := bytesLE (payloadLength header) (v / 2 ^ 64) }

/-- The operation `decode` reads from a request given as one number. -/
def decodeTableWord (nbits w : Nat) : Option Instr :=
  match decode (transactionOfWord nbits w) with
  | .ok i => some i
  | .error _ => none

end Sys2Proof
end

