-- ==== Sys2Proof/Machine/Request.lean ====
section
/-! DEFINITION. The request port (30_encoding.md R60 to R64). -/

namespace Sys2Proof.Machine

/-- R64, R155.3: decoding comes before everything else; a reserved `op` and a transaction that is no
request are refused by name. -/
def decodeRequest (t : Transaction) : Except Refusal Instr :=
  match decode t with
  | .ok i => .ok i
  | .error (.reservedOp op) => .error (.illegalRequest op)
  | .error (.payloadLength e g) => .error (.malformedRequest e g)

/-- The caller presents a request as its next action. -/
def presentRequest (s : State) (t : Transaction) : State := { s with port := .request t :: s.port }

end Sys2Proof.Machine
end

