-- ==== Sys2Proof/Machine/Step.lean ====
section
/-! DEFINITION. One step: the caller's next action is taken from the port and performed (20_memory.md R50:
one at a time, in issue order, each complete before the next). -/

namespace Sys2Proof.Machine

/-- One step of the session. A configuration that breaks R9 is refused; with nothing on the port the
block waits (log 9). -/
def step (s : State) : Host.Outcome State Fault Refusal :=
  if CfgOk s.cfg then
    match s.port with
    | [] => .next s
    | .request t :: rest =>
      match decodeRequest t with
      | .ok i => exec i { s with port := rest }
      | .error r => .refused r
    | .bufferWrite r k v :: rest => bufferWrite r k v { s with port := rest }
    | .concurrent _ _ :: _ => .refused .concurrentUse
  else .refused .illFormedConfig

/-- `s` with the request given as one number presented on the port, as the caller's next action (log 9). -/
def State.withFetchWord (s : State) (nbits w : Nat) : State := presentRequest s (transactionOfWord nbits w)

end Sys2Proof.Machine
end

