-- ==== Sys2Proof/Machine/Response.lean ====
section
/-! DEFINITION. The response encoding of 30_encoding.md R65, R66. -/

namespace Sys2Proof.Machine

/-- R66: the status codes. -/
def responseStatus : Response → Byte
  | .byte _ | .raw _ _ | .done | .size _ => 0x00#8
  | .fault (.accessViolation _) => 0x01#8
  | .fault (.streamFault _) => 0x02#8
  | .fault (.backingStoreFault _) => 0x03#8
  | .illegalRequest => 0x04#8

/-- R65: the record of an address fault: location and length least significant byte first, then 1 for a
read and 0 for a write. -/
def accessInfoBytes (i : AccessInfo) : List Byte :=
  bytesLE 4 i.location.toNat ++ bytesLE 4 i.numBytes ++ [if i.wasRead then 1#8 else 0#8]

/-- R65: the payload after the status. -/
def responsePayload : Response → List Byte
  | .byte v => [v]
  | .raw d bk => (if bk then 1#8 else 0#8) :: d
  | .done => []
  | .size n => bytesLE 8 n
  | .fault (.accessViolation i) => accessInfoBytes i
  | .fault (.streamFault f) => f
  | .fault (.backingStoreFault i) => accessInfoBytes i
  | .illegalRequest => []

/-- R65: the response as the caller receives it: the 8-bit status, then the payload. -/
def responseBytes (r : Response) : List Byte := responseStatus r :: responsePayload r

/-- R64, R153: a refused reserved `op` is answered ILLEGAL_REQUEST; the other refusals are the model's
and answer nothing. -/
def refusalResponse : Refusal → Option Response
  | .illegalRequest _ => some .illegalRequest
  | _ => none

end Sys2Proof.Machine
end

