-- ==== Sys2Proof/Safety.lean ====
section
/-! DEFINITION. What a session state keeps (`SessionInv`), and what counts as a safe run. -/

namespace Sys2Proof.Machine

/-- R29, R101, R102: what is true of a live view: a valid span outside both device words, inside the
backing store, that the backing store backs. -/
def ViewOk (c : Cfg) (v : View) : Prop :=
  ValidSpan v.start.toNat v.len ∧
  classify v.start.toNat v.len c.stdinAddr.toNat = .outsideBoundary ∧
  classify v.start.toNat v.len c.stdoutAddr.toNat = .outsideBoundary ∧
  v.start.toNat + v.len ≤ c.memSize.toNat ∧
  bsBacked c v.start v.len = true

/-- A result buffer: a live view is in `views` (R29); a copy has one of the sizes of R42. -/
def BufferOk (s : State) : Buffer → Prop
  | .live v => v ∈ s.views
  | .copy d => d.length = 1 ∨ d.length = 2 ∨ d.length = 4

/-- R91: the byte a recorded call gave to the output stream, if the stream took it. -/
def takenByte : StreamCall → Option Byte
  | .write v true _ => some v
  | .write _ false _ => none
  | .read _ _ => none

/-- The invariant of a session: a well-formed configuration (R9), backing store contents in canonical form
and in range (R23, R25), live views that are what R29 and R101 make them, without repeats, result buffers
that agree with them, and `out` holding exactly the bytes the output stream took (R27, R91). -/
structure SessionInv (s : State) : Prop where
  cfgOk : CfgOk s.cfg
  memWf : Memory.wf s.mem
  memInRange : MemInRange s.mem s.cfg.memSize.toNat
  viewsNodup : s.views.Nodup
  viewsOk : ∀ v ∈ s.views, ViewOk s.cfg v
  buffersOk : ∀ b ∈ s.buffers, BufferOk s b
  outTaken : s.out = s.calls.filterMap takenByte

/-- R158: whether a response is a fault of R150 to R152 (ILLEGAL_REQUEST is none: R153), for a claim with a "no fault occurred" premise. -/
def isFaultResponse : Response → Bool
  | .fault _ => true
  | .byte _ => false
  | .raw _ _ => false
  | .done => false
  | .size _ => false
  | .illegalRequest => false

/-- R158: the history of a session holds no fault. -/
abbrev NoFaultOccurred (s : State) : Prop := ∀ r ∈ s.responses, isFaultResponse r = false

end Sys2Proof.Machine
end

