-- ==== Sys2Proof/Certificates/Slice0/Obligations.lean ====
section
/-! DEFINITION. The statements about the MMIO decoder, each from the numbered rules of spec/. -/

namespace Sys2Proof.Machine

/-! ### Terms of the statements -/

/-- R84, R104, R125: the span `(a, n)` is entirely outside the device word at `b`. -/
def SpanMisses (a n b : Nat) : Prop := ∀ x, a ≤ x → x < a + n → ¬ InWord b x

/-- R150: the operation must answer `AccessViolation` with this record. -/
def MustViolate (i : Instr) (r : AccessInfo) : Prop :=
  match i with
  | .readByte _ => False
  | .readRaw a n => ¬ ValidSpan a.toNat n ∧ r = { location := a, numBytes := n, wasRead := true }
  | .writeByte _ _ => False
  | .writeRaw d a =>
    ¬ ValidSpan a.toNat d.length ∧ r = { location := a, numBytes := d.length, wasRead := false }
  | .size => False

/-- R152, R154: the operation must answer `BackingStoreFault` with this record. -/
def MustMissStore (c : Cfg) (i : Instr) (r : AccessInfo) : Prop :=
  match i with
  | .readByte a => ¬ InWord c.stdinAddr.toNat a.toNat ∧ c.memSize.toNat ≤ a.toNat ∧
      r = { location := a, numBytes := 1, wasRead := true }
  | .readRaw a n => ValidSpan a.toNat n ∧ SpanMisses a.toNat n c.stdinAddr.toNat ∧
      c.memSize.toNat < a.toNat + n ∧ r = { location := a, numBytes := n, wasRead := true }
  | .writeByte _ a => ¬ InWord c.stdoutAddr.toNat a.toNat ∧ c.memSize.toNat ≤ a.toNat ∧
      r = { location := a, numBytes := 1, wasRead := false }
  | .writeRaw d a => ValidSpan a.toNat d.length ∧ a.toNat + d.length - 1 ≠ c.stdoutAddr.toNat + 3 ∧
      c.memSize.toNat < a.toNat + d.length ∧
      r = { location := a, numBytes := d.length, wasRead := false }
  | .size => False

/-- R47, R151: the operations that read one byte from the input stream. -/
def ReadsStream (c : Cfg) (i : Instr) : Prop :=
  match i with
  | .readByte a => a = c.stdinAddr
  | .readRaw a n => ValidSpan a.toNat n ∧ a = c.stdinAddr
  | .writeByte _ _ => False
  | .writeRaw _ _ => False
  | .size => False

/-- R47, R151: the operations that give the byte `v` to the output stream. -/
def WritesStream (c : Cfg) (i : Instr) (v : Byte) : Prop :=
  match i with
  | .readByte _ => False
  | .readRaw _ _ => False
  | .writeByte w a => a = c.stdoutAddr ∧ v = w
  | .writeRaw d a => ValidSpan a.toNat d.length ∧ a.toNat + d.length - 1 = c.stdoutAddr.toNat + 3 ∧
      d.getLast? = some v
  | .size => False

/-- R65: the `OK` answers an operation can get. -/
def OkAnswer (i : Instr) (r : Response) : Prop :=
  match i with
  | .readByte _ => ∃ v, r = .byte v
  | .readRaw _ n => ∃ d bk, r = .raw d bk ∧ d.length = n
  | .writeByte _ _ => r = .done
  | .writeRaw _ _ => r = .done
  | .size => ∃ n, r = .size n

/-- R30: buffers that differ at most in the bytes of an independent copy. -/
def SameShape : Buffer → Buffer → Prop
  | .live v, .live w => v = w
  | .copy d, .copy e => d.length = e.length
  | .live _, .copy _ => False
  | .copy _, .live _ => False

/-- R30: sessions that differ at most in the bytes of the caller's independent copies. -/
def SameButCopies (s t : State) : Prop :=
  ∃ bs, List.Forall₂ SameShape s.buffers bs ∧ t = { s with buffers := bs }

/-- Two runs that end alike, up to the bytes of the caller's independent copies. -/
def EndAlike : Host.Outcome State Fault Refusal → Host.Outcome State Fault Refusal → Prop
  | .next s, .next t => SameButCopies s t
  | .fault f, .fault g => f = g
  | .refused f, .refused g => f = g
  | _, _ => False

end Sys2Proof.Machine

open Sys2Proof Sys2Proof.Machine

/-! ### Encoding -/

/-- R60, R61, R63: decoding what the encoder writes gives the operation back, for every well-formed one. -/
def Obligations.DecodeEncodeRoundTrip : Prop :=
  ∀ i : Instr, i.wellFormed = true → decode (encode i) = .ok i

/-- R60 to R63: an operation that decodes is well formed, and encoding it gives the transaction back up to
the fields that R60 says are ignored: `len` of the operations other than the raw ones, `addr` of `SIZE`. -/
def Obligations.DecodedTransactionIsCanonical : Prop :=
  ∀ (t : Transaction) (i : Instr), decode t = .ok i →
    i.wellFormed = true ∧
    headerOp (encode i).header = headerOp t.header ∧
    (encode i).payload = t.payload ∧
    requestLength t.header = 8 + t.payload.length ∧
    (i ≠ .size → (encode i).addr = t.addr) ∧
    (headerOp t.header = 0x02#8 ∨ headerOp t.header = 0x04#8 → (encode i).header = t.header)

/-- R63: the opcode map, for every value of the fields an operation ignores: `len` and `addr` take no part
in selecting it. -/
def Obligations.OpcodeMapDecodes : Prop :=
  (∀ (len : Nat) (a : Addr), decode ⟨makeHeader len 0x01#8, a, []⟩ = .ok (.readByte a)) ∧
  (∀ (len : Nat) (a : Addr), len < 2 ^ 24 → decode ⟨makeHeader len 0x02#8, a, []⟩ = .ok (.readRaw a len)) ∧
  (∀ (len : Nat) (a : Addr) (v : Byte), decode ⟨makeHeader len 0x03#8, a, [v]⟩ = .ok (.writeByte v a)) ∧
  (∀ (d : List Byte) (a : Addr), d.length < 2 ^ 24 →
    decode ⟨makeHeader d.length 0x04#8, a, d⟩ = .ok (.writeRaw d a)) ∧
  (∀ (len : Nat) (a : Addr), decode ⟨makeHeader len 0x05#8, a, []⟩ = .ok .size)

/-- R69: every row of the worked encodings. -/
def Obligations.WorkedEncodingsHold : Prop :=
  (decode ⟨0x00000402#32, 0x80#32, []⟩ = .ok (.readRaw 0x80#32 4) ∧
    encode (.readRaw 0x80#32 4) = ⟨0x00000402#32, 0x80#32, []⟩) ∧
  (decode ⟨0x00000001#32, 0x80#32, []⟩ = .ok (.readByte 0x80#32) ∧
    encode (.readByte 0x80#32) = ⟨0x00000001#32, 0x80#32, []⟩) ∧
  (decode ⟨0x00000003#32, 0x90#32, [0x41#8]⟩ = .ok (.writeByte 0x41#8 0x90#32) ∧
    encode (.writeByte 0x41#8 0x90#32) = ⟨0x00000003#32, 0x90#32, [0x41#8]⟩) ∧
  (decode ⟨0x00000404#32, 0x90#32, [0#8, 0#8, 0#8, 0x41#8]⟩ =
      .ok (.writeRaw [0#8, 0#8, 0#8, 0x41#8] 0x90#32) ∧
    encode (.writeRaw [0#8, 0#8, 0#8, 0x41#8] 0x90#32) =
      ⟨0x00000404#32, 0x90#32, [0#8, 0#8, 0#8, 0x41#8]⟩) ∧
  (decode ⟨0x00000104#32, 0x93#32, [0x41#8]⟩ = .ok (.writeRaw [0x41#8] 0x93#32) ∧
    encode (.writeRaw [0x41#8] 0x93#32) = ⟨0x00000104#32, 0x93#32, [0x41#8]⟩) ∧
  (decode ⟨0x00000005#32, 0#32, []⟩ = .ok .size ∧ encode .size = ⟨0x00000005#32, 0#32, []⟩) ∧
  (decode ⟨0x00000302#32, 0x80#32, []⟩ = .ok (.readRaw 0x80#32 3) ∧
    encode (.readRaw 0x80#32 3) = ⟨0x00000302#32, 0x80#32, []⟩ ∧
    ∀ s : State, exec (.readRaw 0x80#32 3) s = .next { s with
      responses := s.responses ++ [.fault (.accessViolation ⟨0x80#32, 3, true⟩)] }) ∧
  (∀ a : Addr, decode ⟨0x00000007#32, a, []⟩ = .error (.reservedOp 0x07#8))

/-- R64: a request with a reserved `op` is refused, and the refusal's answer is the status
ILLEGAL_REQUEST with no payload. A refusal has no next state: nothing is performed. -/
def Obligations.ReservedOpIsRefused : Prop :=
  ∀ (s : State) (t : Transaction) (rest : List CallerAction), CfgOk s.cfg → s.port = .request t :: rest →
    headerOp t.header = 0#8 ∨ 6 ≤ (headerOp t.header).toNat →
    step s = .refused (.illegalRequest (headerOp t.header)) ∧
    refusalResponse (.illegalRequest (headerOp t.header)) = some .illegalRequest ∧
    responseBytes .illegalRequest = [0x04#8]

/-- R66: the status codes, and that no other code is sent. -/
def Obligations.ResponseStatusCodes : Prop :=
  (∀ v, responseStatus (.byte v) = 0x00#8) ∧ (∀ d bk, responseStatus (.raw d bk) = 0x00#8) ∧
  responseStatus .done = 0x00#8 ∧ (∀ n, responseStatus (.size n) = 0x00#8) ∧
  (∀ i, responseStatus (.fault (.accessViolation i)) = 0x01#8) ∧
  (∀ f, responseStatus (.fault (.streamFault f)) = 0x02#8) ∧
  (∀ i, responseStatus (.fault (.backingStoreFault i)) = 0x03#8) ∧
  responseStatus .illegalRequest = 0x04#8 ∧
  ∀ r, (responseStatus r).toNat < 5

/-- R65: the bytes of a response after its status: the multi-byte fields least significant byte first. -/
def Obligations.ResponsePayloadLayout : Prop :=
  (∀ v, responseBytes (.byte v) = [0x00#8, v]) ∧
  (∀ d bk, responseBytes (.raw d bk) = [0x00#8, if bk then 0x01#8 else 0x00#8] ++ d) ∧
  responseBytes .done = [0x00#8] ∧
  (∀ n, n < 2 ^ 64 → ∃ p, responseBytes (.size n) = 0x00#8 :: p ∧ p.length = 8 ∧
    (p.map BitVec.toNat).foldr (fun b acc => b + 256 * acc) 0 = n) ∧
  (∀ i : AccessInfo, i.numBytes < 2 ^ 32 → ∃ p q : List Byte,
    responseBytes (.fault (.accessViolation i)) =
      0x01#8 :: (p ++ q ++ [if i.wasRead then 0x01#8 else 0x00#8]) ∧
    responseBytes (.fault (.backingStoreFault i)) =
      0x03#8 :: (p ++ q ++ [if i.wasRead then 0x01#8 else 0x00#8]) ∧
    p.length = 4 ∧ q.length = 4 ∧
    (p.map BitVec.toNat).foldr (fun b acc => b + 256 * acc) 0 = i.location.toNat ∧
    (q.map BitVec.toNat).foldr (fun b acc => b + 256 * acc) 0 = i.numBytes) ∧
  (∀ f, responseBytes (.fault (.streamFault f)) = 0x02#8 :: f) ∧
  responseBytes .illegalRequest = [0x04#8]

/-- R67: the tag encoding, in which every 2-bit value is used. -/
def Obligations.ClassifierTagCodes : Prop :=
  tagBits .crossesBoundary = 0b00#2 ∧ tagBits .firstIsBoundary = 0b01#2 ∧
  tagBits .laterBytesInBoundary = 0b10#2 ∧ tagBits .outsideBoundary = 0b11#2 ∧
  ∀ b : BitVec 2, ∃ t, tagBits t = b

/-! ### The BoundaryClassifier -/

/-- R81 for spans of at least one byte (log 18 says why not for empty ones): `OutsideBoundary` exactly when
the span and the word share no byte, `CrossesBoundary` exactly when they share one and the span also has
one outside the word. -/
def Obligations.ClassifyTellsOverlap : Prop :=
  ∀ s n b : Nat, 0 < n →
    (classify s n b = .outsideBoundary ↔ SpanMisses s n b) ∧
    (classify s n b = .crossesBoundary ↔
      (∃ x, s ≤ x ∧ x < s + n ∧ InWord b x) ∧ (∃ x, s ≤ x ∧ x < s + n ∧ ¬ InWord b x))

/-- R80's corner cases: empty spans, a span of more than 4 bytes from the word's start, a span starting
one past the word, a span ending just before it. -/
def Obligations.ClassifyCornerCases : Prop :=
  (∀ b, classify b 0 b = .firstIsBoundary) ∧
  (∀ s b, InTail b s → classify s 0 b = .laterBytesInBoundary) ∧
  (∀ s b, ¬ InWord b s → classify s 0 b = .outsideBoundary) ∧
  (∀ n b, 4 < n → classify b n b = .crossesBoundary) ∧
  (∀ n b, classify (b + 4) n b = .outsideBoundary) ∧
  (∀ s n b, s + n = b → 0 < n → classify s n b = .outsideBoundary)

/-- R82: the tags of the valid spans against a device word. -/
def Obligations.ValidSpanTags : Prop :=
  ∀ s n b : Nat, ValidSpan s n → b % 4 = 0 →
    (classify s n b = .firstIsBoundary ↔ s = b) ∧
    (classify s n b = .laterBytesInBoundary ↔
      (n = 1 ∧ (s = b + 1 ∨ s = b + 2 ∨ s = b + 3)) ∨ (s = b + 2 ∧ n = 2)) ∧
    (classify s n b = .outsideBoundary ↔
      ¬ (s = b ∨ (n = 1 ∧ (s = b + 1 ∨ s = b + 2 ∨ s = b + 3)) ∨ (s = b + 2 ∧ n = 2))) ∧
    classify s n b ≠ .crossesBoundary ∧
    (InWord b s → s + n - 1 = b + 3 → (s = b ∧ n = 4) ∨ (s = b + 2 ∧ n = 2) ∨ (s = b + 3 ∧ n = 1))

/-- R44: a valid span lies in one aligned 4-byte block, so it is inside a device word of a well-formed
configuration or misses it, and never crosses. -/
def Obligations.ValidSpanLiesInOneBlock : Prop :=
  ∀ s n : Nat, ValidSpan s n →
    (∃ q, ∀ x, s ≤ x → x < s + n → 4 * q ≤ x ∧ x ≤ 4 * q + 3) ∧
    ∀ c : Cfg, CfgOk c → ∀ b, b = c.stdinAddr.toNat ∨ b = c.stdoutAddr.toNat →
      ((∀ x, s ≤ x → x < s + n → InWord b x) ∨ SpanMisses s n b) ∧ classify s n b ≠ .crossesBoundary

/-! ### What each operation does -/

/-- R100: the outcome of `READ_BYTE` for every address and every answer of the input stream that comes;
with count 0 and no fault the byte is some byte (R90). -/
def Obligations.ReadByteResult : Prop :=
  ∀ (s : State) (i : Addr),
    (i = s.cfg.stdinAddr → ∀ v, s.nextRead = .returned (some v) none →
      exec (.readByte i) s = .next { s with
        inp := s.inp.tail, calls := s.calls ++ [.read (some v) none]
        responses := s.responses ++ [.byte v] }) ∧
    (i = s.cfg.stdinAddr → s.nextRead = .returned none none →
      ∃ v, exec (.readByte i) s = .next { s with
        inp := s.inp.tail, calls := s.calls ++ [.read none none]
        responses := s.responses ++ [.byte v] }) ∧
    (i = s.cfg.stdinAddr → ∀ b f, s.nextRead = .returned b (some f) →
      exec (.readByte i) s = .next { s with
        inp := s.inp.tail, calls := s.calls ++ [.read b (some f)]
        responses := s.responses ++ [.fault (.streamFault f)] }) ∧
    (InTail s.cfg.stdinAddr.toNat i.toNat →
      exec (.readByte i) s = .next { s with responses := s.responses ++ [.byte 0x00#8] }) ∧
    (¬ InWord s.cfg.stdinAddr.toNat i.toNat → i.toNat < s.cfg.memSize.toNat →
      exec (.readByte i) s = .next { s with responses := s.responses ++ [.byte (s.byteAt i.toNat)] }) ∧
    (¬ InWord s.cfg.stdinAddr.toNat i.toNat → s.cfg.memSize.toNat ≤ i.toNat →
      exec (.readByte i) s = .next { s with
        responses := s.responses ++ [.fault (.backingStoreFault ⟨i, 1, true⟩)] })

/-- R101: the outcome of `READ_RAW` for every span and every answer of the input stream that comes. -/
def Obligations.ReadRawResult : Prop :=
  ∀ (s : State) (a : Addr) (n : Nat), CfgOk s.cfg →
    (¬ ValidSpan a.toNat n →
      exec (.readRaw a n) s = .next { s with
        responses := s.responses ++ [.fault (.accessViolation ⟨a, n, true⟩)] }) ∧
    (ValidSpan a.toNat n →
      (a = s.cfg.stdinAddr → ∀ v, s.nextRead = .returned (some v) none →
        exec (.readRaw a n) s = .next { s with
          inp := s.inp.tail, calls := s.calls ++ [.read (some v) none]
          buffers := s.buffers ++ [.copy (v :: List.replicate (n - 1) 0x00#8)]
          responses := s.responses ++ [.raw (v :: List.replicate (n - 1) 0x00#8) false] }) ∧
      (a = s.cfg.stdinAddr → s.nextRead = .returned none none →
        ∃ v, exec (.readRaw a n) s = .next { s with
          inp := s.inp.tail, calls := s.calls ++ [.read none none]
          buffers := s.buffers ++ [.copy (v :: List.replicate (n - 1) 0x00#8)]
          responses := s.responses ++ [.raw (v :: List.replicate (n - 1) 0x00#8) false] }) ∧
      (a = s.cfg.stdinAddr → ∀ b f, s.nextRead = .returned b (some f) →
        exec (.readRaw a n) s = .next { s with
          inp := s.inp.tail, calls := s.calls ++ [.read b (some f)]
          responses := s.responses ++ [.fault (.streamFault f)] }) ∧
      (InTail s.cfg.stdinAddr.toNat a.toNat →
        exec (.readRaw a n) s = .next { s with
          buffers := s.buffers ++ [.copy (List.replicate n 0x00#8)]
          responses := s.responses ++ [.raw (List.replicate n 0x00#8) false] }) ∧
      (SpanMisses a.toNat n s.cfg.stdinAddr.toNat → s.cfg.memSize.toNat < a.toNat + n →
        exec (.readRaw a n) s = .next { s with
          responses := s.responses ++ [.fault (.backingStoreFault ⟨a, n, true⟩)] }) ∧
      (SpanMisses a.toNat n s.cfg.stdinAddr.toNat → a.toNat + n ≤ s.cfg.memSize.toNat →
        (InWord s.cfg.stdoutAddr.toNat a.toNat ∨ bsBacked s.cfg a n = false →
          exec (.readRaw a n) s = .next { s with
            buffers := s.buffers ++ [.copy (s.bytesAt a.toNat n)]
            responses := s.responses ++ [.raw (s.bytesAt a.toNat n) false] }) ∧
        (SpanMisses a.toNat n s.cfg.stdoutAddr.toNat → bsBacked s.cfg a n = true →
          exec (.readRaw a n) s = .next { s with
            views := if ⟨a, n⟩ ∈ s.views then s.views else s.views ++ [⟨a, n⟩]
            buffers := s.buffers ++ [.live ⟨a, n⟩]
            responses := s.responses ++ [.raw (s.bytesAt a.toNat n) true] })))

/-- R120: the outcome of `WRITE_BYTE` for every address and every answer of the output stream that comes. -/
def Obligations.WriteByteResult : Prop :=
  ∀ (s : State) (v : Byte) (i : Addr),
    (i = s.cfg.stdoutAddr → ∀ k, s.nextWrite v = .returned k none →
      exec (.writeByte v i) s = .next { s with
        outp := s.outp.tail, calls := s.calls ++ [.write v k none]
        out := if k then s.out ++ [v] else s.out
        responses := s.responses ++ [.done] }) ∧
    (i = s.cfg.stdoutAddr → ∀ k f, s.nextWrite v = .returned k (some f) →
      exec (.writeByte v i) s = .next { s with
        outp := s.outp.tail, calls := s.calls ++ [.write v k (some f)]
        out := if k then s.out ++ [v] else s.out
        responses := s.responses ++ [.fault (.streamFault f)] }) ∧
    (InTail s.cfg.stdoutAddr.toNat i.toNat →
      exec (.writeByte v i) s = .next { s with responses := s.responses ++ [.done] }) ∧
    (¬ InWord s.cfg.stdoutAddr.toNat i.toNat → i.toNat < s.cfg.memSize.toNat →
      exec (.writeByte v i) s = .next { s with
        mem := memPut s.mem i.toNat v, responses := s.responses ++ [.done] }) ∧
    (¬ InWord s.cfg.stdoutAddr.toNat i.toNat → s.cfg.memSize.toNat ≤ i.toNat →
      exec (.writeByte v i) s = .next { s with
        responses := s.responses ++ [.fault (.backingStoreFault ⟨i, 1, false⟩)] })

/-- R121: the outcome of `WRITE_RAW` for every span and every answer of the output stream that comes. -/
def Obligations.WriteRawResult : Prop :=
  ∀ (s : State) (d : List Byte) (a : Addr), CfgOk s.cfg →
    (¬ ValidSpan a.toNat d.length →
      exec (.writeRaw d a) s = .next { s with
        responses := s.responses ++ [.fault (.accessViolation ⟨a, d.length, false⟩)] }) ∧
    (ValidSpan a.toNat d.length →
      (a.toNat + d.length - 1 = s.cfg.stdoutAddr.toNat + 3 → ∀ v, d.getLast? = some v →
        (∀ k, s.nextWrite v = .returned k none →
          exec (.writeRaw d a) s = .next { s with
            outp := s.outp.tail, calls := s.calls ++ [.write v k none]
            out := if k then s.out ++ [v] else s.out
            responses := s.responses ++ [.done] }) ∧
        (∀ k f, s.nextWrite v = .returned k (some f) →
          exec (.writeRaw d a) s = .next { s with
            outp := s.outp.tail, calls := s.calls ++ [.write v k (some f)]
            out := if k then s.out ++ [v] else s.out
            responses := s.responses ++ [.fault (.streamFault f)] })) ∧
      (a.toNat + d.length - 1 ≠ s.cfg.stdoutAddr.toNat + 3 → a.toNat + d.length ≤ s.cfg.memSize.toNat →
        exec (.writeRaw d a) s = .next { s with
          mem := memPutAll s.mem a.toNat d, responses := s.responses ++ [.done] }) ∧
      (a.toNat + d.length - 1 ≠ s.cfg.stdoutAddr.toNat + 3 → s.cfg.memSize.toNat < a.toNat + d.length →
        exec (.writeRaw d a) s = .next { s with
          responses := s.responses ++ [.fault (.backingStoreFault ⟨a, d.length, false⟩)] }))

/-- R140: `SIZE` answers `MEM_SIZE` and changes nothing else. -/
def Obligations.SizeResult : Prop :=
  ∀ s : State, exec .size s = .next { s with responses := s.responses ++ [.size s.cfg.memSize.toNat] }

/-- R24, R46, R48: what a plain write leaves in the backing store: element `k` at address `a + k`, and
every other byte as it was. -/
def Obligations.PlainWritePlacesBytes : Prop :=
  ∀ (s : State) (d : List Byte) (a : Addr), CfgOk s.cfg → ValidSpan a.toNat d.length →
    a.toNat + d.length - 1 ≠ s.cfg.stdoutAddr.toNat + 3 → a.toNat + d.length ≤ s.cfg.memSize.toNat →
    ∃ t, exec (.writeRaw d a) s = .next t ∧ t.responses = s.responses ++ [.done] ∧
      (∀ k v, d[k]? = some v → t.byteAt (a.toNat + k) = v) ∧
      (∀ x, x < a.toNat ∨ a.toNat + d.length ≤ x → t.byteAt x = s.byteAt x)

/-- R122: the seven valid spans of `WRITE_RAW` inside the stdout word, at `b = STDOUT_ADDR`: the first three
give one byte to the output stream and write no backing-store byte; the last four write the backing store. -/
def Obligations.WriteRawInsideStdoutWord : Prop :=
  ∀ (s : State) (b : Addr) (w x y z : Byte), CfgOk s.cfg → b = s.cfg.stdoutAddr →
    (∀ k, s.nextWrite z = .returned k none → ∀ d a,
      (d = [w, x, y, z] ∧ a = b) ∨ (d = [y, z] ∧ a = b + 2#32) ∨ (d = [z] ∧ a = b + 3#32) →
      ∃ t, exec (.writeRaw d a) s = .next t ∧ t.responses = s.responses ++ [.done] ∧
        t.mem = s.mem ∧ t.out = (if k then s.out ++ [z] else s.out) ∧
        t.calls = s.calls ++ [.write z k none]) ∧
    (∀ d o, (d = [w] ∧ o = 0) ∨ (d = [w, x] ∧ o = 0) ∨ (d = [x] ∧ o = 1) ∨ (d = [y] ∧ o = 2) →
      (b.toNat + o + d.length ≤ s.cfg.memSize.toNat →
        ∃ t, exec (.writeRaw d (b + BitVec.ofNat 32 o)) s = .next t ∧ t.responses = s.responses ++ [.done] ∧
          t.out = s.out ∧ t.calls = s.calls ∧
          ∀ p, t.byteAt p = if b.toNat + o ≤ p then (d[p - (b.toNat + o)]?).getD (s.byteAt p) else s.byteAt p) ∧
      (s.cfg.memSize.toNat < b.toNat + o + d.length →
        exec (.writeRaw d (b + BitVec.ofNat 32 o)) s = .next { s with
          responses := s.responses ++
            [.fault (.backingStoreFault ⟨b + BitVec.ofNat 32 o, d.length, false⟩)] }))

/-- R123: the source's write properties hold of `WRITE_BYTE` and not of `WRITE_RAW`. -/
def Obligations.WritePropertiesAreOfWriteByte : Prop :=
  ∀ (s : State) (v : Byte), CfgOk s.cfg →
    (s.nextWrite v = .returned true none → ∃ t, exec (.writeByte v s.cfg.stdoutAddr) s = .next t ∧
      t.out = s.out ++ [v] ∧ t.mem = s.mem) ∧
    (∀ i : Addr, InTail s.cfg.stdoutAddr.toNat i.toNat →
      exec (.writeByte v i) s = .next { s with responses := s.responses ++ [.done] }) ∧
    (s.cfg.stdoutAddr.toNat < s.cfg.memSize.toNat →
      ∃ t, exec (.writeRaw [v] s.cfg.stdoutAddr) s = .next t ∧ t.byteAt s.cfg.stdoutAddr.toNat = v ∧
        t.out = s.out) ∧
    (s.nextWrite v = .returned true none →
      ∃ t, exec (.writeRaw [v] (s.cfg.stdoutAddr + 3#32)) s = .next t ∧ t.out = s.out ++ [v])

/-- R93, R186: an operation whose stream never answers is stuck: no further step. -/
def Obligations.SilentStreamLeavesBlockStuck : Prop :=
  ∀ s : State, CfgOk s.cfg →
    (s.nextRead = .never → ∀ i, ReadsStream s.cfg i → exec i s = .fault .stuckOnInput) ∧
    (∀ v, s.nextWrite v = .never → ∀ i, WritesStream s.cfg i v → exec i s = .fault .stuckOnOutput)

/-- R48, R50, R93: every operation, in every state, completes, unless it called a stream that never
answers. -/
def Obligations.EveryOperationCompletes : Prop :=
  ∀ (i : Instr) (s : State), s.nextRead ≠ .never → (∀ v, s.nextWrite v ≠ .never) →
    ∃ t, exec i s = .next t

/-! ### Frames -/

/-- R20, R22, R47: the reads and `SIZE` leave the whole backing store, the configuration, the output
stream and the port as they were; `READ_BYTE` and `SIZE` the views and the result buffers too; and the
input stream moves only for a span starting at `STDIN_ADDR`. -/
def Obligations.ReadOperationsFrame : Prop :=
  ∀ (i : Instr) (s t : State),
    (∃ a, i = .readByte a) ∨ (∃ a n, i = .readRaw a n) ∨ i = .size → exec i s = .next t →
    (∀ x, t.byteAt x = s.byteAt x) ∧ t.mem = s.mem ∧ t.cfg = s.cfg ∧ t.out = s.out ∧ t.outp = s.outp ∧
    t.port = s.port ∧
    ((∀ a n, i ≠ .readRaw a n) → t.views = s.views ∧ t.buffers = s.buffers) ∧
    (i ≠ .readByte s.cfg.stdinAddr → (∀ n, i ≠ .readRaw s.cfg.stdinAddr n) →
      t.inp = s.inp ∧ t.calls = s.calls) ∧
    (∀ v, v ∈ s.views → v ∈ t.views) ∧ (∃ e, t.buffers = s.buffers ++ e) ∧
    ∃ r, t.responses = s.responses ++ [r]

/-- R120: `WRITE_BYTE` leaves every byte of the backing store but the one at its address as it was, that one
too when the address is in the stdout word or outside the backing store, and everything but the backing
store, the output stream and the responses. -/
def Obligations.WriteByteFrame : Prop :=
  ∀ (v : Byte) (i : Addr) (s t : State), exec (.writeByte v i) s = .next t →
    (∀ x, x ≠ i.toNat → t.byteAt x = s.byteAt x) ∧
    (InWord s.cfg.stdoutAddr.toNat i.toNat ∨ s.cfg.memSize.toNat ≤ i.toNat → t.mem = s.mem) ∧
    (i ≠ s.cfg.stdoutAddr → t.out = s.out ∧ t.outp = s.outp ∧ t.calls = s.calls) ∧
    t.cfg = s.cfg ∧ t.inp = s.inp ∧ t.views = s.views ∧ t.buffers = s.buffers ∧ t.port = s.port ∧
    ∃ r, t.responses = s.responses ++ [r]

/-- R121: `WRITE_RAW` leaves every byte of the backing store outside its span as it was, the whole of it when
the span is invalid, ends at `STDOUT_ADDR + 3` or leaves the backing store, and everything but the backing
store, the output stream and the responses. -/
def Obligations.WriteRawFrame : Prop :=
  ∀ (d : List Byte) (a : Addr) (s t : State), exec (.writeRaw d a) s = .next t →
    (∀ x, x < a.toNat ∨ a.toNat + d.length ≤ x → t.byteAt x = s.byteAt x) ∧
    (¬ ValidSpan a.toNat d.length ∨ a.toNat + d.length - 1 = s.cfg.stdoutAddr.toNat + 3 ∨
      s.cfg.memSize.toNat < a.toNat + d.length → t.mem = s.mem) ∧
    (a.toNat + d.length - 1 ≠ s.cfg.stdoutAddr.toNat + 3 →
      t.out = s.out ∧ t.outp = s.outp ∧ t.calls = s.calls) ∧
    t.cfg = s.cfg ∧ t.inp = s.inp ∧ t.views = s.views ∧ t.buffers = s.buffers ∧ t.port = s.port ∧
    ∃ r, t.responses = s.responses ++ [r]

/-! ### Rules of the whole block -/

/-- R65, R157: an operation that completes delivers exactly one response, an `OK` answer of its own kind or
one fault, and takes nothing from the port. -/
def Obligations.EveryOperationAnswersOnce : Prop :=
  ∀ (i : Instr) (s t : State), exec i s = .next t →
    t.port = s.port ∧
    ∃ r, t.responses = s.responses ++ [r] ∧ (OkAnswer i r ∨ ∃ f, r = .fault f)

/-- R154 (with R150, R151, R152): which operation returns which fault, with the exact record. -/
def Obligations.FaultTable : Prop :=
  ∀ (i : Instr) (s t : State) (r : Response), CfgOk s.cfg → exec i s = .next t →
    t.responses = s.responses ++ [r] →
    (∀ info, r = .fault (.accessViolation info) ↔ MustViolate i info) ∧
    (∀ info, r = .fault (.backingStoreFault info) ↔ MustMissStore s.cfg i info) ∧
    (∀ f, r = .fault (.streamFault f) → ReadsStream s.cfg i ∨ ∃ v, WritesStream s.cfg i v) ∧
    (∀ b f, ReadsStream s.cfg i → s.nextRead = .returned b (some f) → r = .fault (.streamFault f)) ∧
    (∀ v k f, WritesStream s.cfg i v → s.nextWrite v = .returned k (some f) → r = .fault (.streamFault f))

/-- R156: what a faulting operation leaves: an address fault changes nothing; a read's stream fault only the
input stream; a write's stream fault writes no backing-store byte, and `out` holds the byte only if the
stream took it. -/
def Obligations.FaultLeavesStateAlone : Prop :=
  ∀ (i : Instr) (s t : State) (f : BlockFault), CfgOk s.cfg → exec i s = .next t →
    t.responses = s.responses ++ [.fault f] →
    (∀ info, f = .accessViolation info ∨ f = .backingStoreFault info →
      t = { s with responses := s.responses ++ [.fault f] }) ∧
    (∀ e, f = .streamFault e → ReadsStream s.cfg i →
      ∃ b, s.nextRead = .returned b (some e) ∧
        t = { s with inp := s.inp.tail, calls := s.calls ++ [.read b (some e)]
                     responses := s.responses ++ [.fault f] }) ∧
    (∀ e v, f = .streamFault e → WritesStream s.cfg i v →
      ∃ k, s.nextWrite v = .returned k (some e) ∧
        t = { s with outp := s.outp.tail, calls := s.calls ++ [.write v k (some e)]
                     out := if k then s.out ++ [v] else s.out
                     responses := s.responses ++ [.fault f] })

/-- R47, R92, R155: an operation calls a stream exactly when it starts at `STDIN_ADDR` on the read side or
emits on the write side, then exactly once and with one byte, and never writes the backing store in the
same operation; every other operation touches no stream. -/
def Obligations.AtMostOneStreamCall : Prop :=
  ∀ (i : Instr) (s t : State), CfgOk s.cfg → exec i s = .next t →
    (ReadsStream s.cfg i → (∃ b f, t.calls = s.calls ++ [.read b f]) ∧ t.inp = s.inp.tail ∧
      t.outp = s.outp ∧ t.out = s.out ∧ t.mem = s.mem) ∧
    (∀ v, WritesStream s.cfg i v → (∃ k f, t.calls = s.calls ++ [.write v k f]) ∧ t.outp = s.outp.tail ∧
      t.inp = s.inp ∧ t.mem = s.mem) ∧
    (¬ ReadsStream s.cfg i → (∀ v, ¬ WritesStream s.cfg i v) →
      t.calls = s.calls ∧ t.inp = s.inp ∧ t.outp = s.outp ∧ t.out = s.out)

/-- R158: no operation depends on the responses of earlier ones: after any fault the next request is served
exactly as if the fault had not happened. -/
def Obligations.FaultsAreNotRemembered : Prop :=
  ∀ (i : Instr) (s t : State) (history : List Response), exec i s = .next t →
    ∃ r, t.responses = s.responses ++ [r] ∧
      exec i { s with responses := history } = .next { t with responses := history ++ [r] }

/-- R150 to R152, R158: an operation that the fault table gives no address fault, and whose stream answers
without a fault if it calls one, completes without a fault. -/
def Obligations.NoFaultWithoutCause : Prop :=
  ∀ (i : Instr) (s : State), CfgOk s.cfg → NoFaultOccurred s →
    (∀ info, ¬ MustViolate i info ∧ ¬ MustMissStore s.cfg i info) →
    (ReadsStream s.cfg i → ∃ b, s.nextRead = .returned b none) →
    (∀ v, WritesStream s.cfg i v → ∃ k, s.nextWrite v = .returned k none) →
    ∃ t, exec i s = .next t ∧ NoFaultOccurred t

/-- R102: the BackedFlag is true if and only if the span lies strictly outside both device words and the
backing store returned a backed view. -/
def Obligations.BackedFlagIff : Prop :=
  ∀ (s t : State) (a : Addr) (n : Nat) (d : List Byte) (bk : Bool), CfgOk s.cfg →
    exec (.readRaw a n) s = .next t → t.responses = s.responses ++ [.raw d bk] →
    (bk = true ↔ SpanMisses a.toNat n s.cfg.stdinAddr.toNat ∧ SpanMisses a.toNat n s.cfg.stdoutAddr.toNat ∧
      bsBacked s.cfg a n = true)

/-- R104: on a valid span entirely outside both device words the reads answer what the backing store
answers, its flag and its faults included. -/
def Obligations.PlainReadsEqualBackingStore : Prop :=
  ∀ (s : State) (a : Addr), CfgOk s.cfg →
    (¬ InWord s.cfg.stdinAddr.toNat a.toNat → ¬ InWord s.cfg.stdoutAddr.toNat a.toNat →
      ∃ t, exec (.readByte a) s = .next t ∧ t.responses = s.responses ++
        [match bsReadOneByte s a with
          | .ok v => .byte v
          | .error f => .fault (.backingStoreFault f)]) ∧
    (∀ n, ValidSpan a.toNat n → SpanMisses a.toNat n s.cfg.stdinAddr.toNat →
      SpanMisses a.toNat n s.cfg.stdoutAddr.toNat →
      ∃ t, exec (.readRaw a n) s = .next t ∧ t.responses = s.responses ++
        [match bsReadRaw s a n with
          | .ok (d, bk) => .raw d bk
          | .error f => .fault (.backingStoreFault f)])

/-- R125: on a valid span entirely outside both device words the writes have the effect and outcome of the
same backing-store call, and reading the span back gives what was written, with the backing store's flag;
outside the backing store both calls return its fault. -/
def Obligations.WriteThenReadRoundTrip : Prop :=
  ∀ (s : State) (d : List Byte) (a : Addr), CfgOk s.cfg → ValidSpan a.toNat d.length →
    SpanMisses a.toNat d.length s.cfg.stdinAddr.toNat → SpanMisses a.toNat d.length s.cfg.stdoutAddr.toNat →
    (∀ v, exec (.writeByte v a) s =
      match bsWriteOneByte s v a with
      | .ok t => .next { t with responses := s.responses ++ [.done] }
      | .error f => .next { s with responses := s.responses ++ [.fault (.backingStoreFault f)] }) ∧
    (exec (.writeRaw d a) s =
      match bsWriteRaw s d a with
      | .ok t => .next { t with responses := s.responses ++ [.done] }
      | .error f => .next { s with responses := s.responses ++ [.fault (.backingStoreFault f)] }) ∧
    (a.toNat + d.length ≤ s.cfg.memSize.toNat →
      ∃ t u, exec (.writeRaw d a) s = .next t ∧ t.responses = s.responses ++ [.done] ∧
        exec (.readRaw a d.length) t = .next u ∧
        u.responses = t.responses ++ [.raw d (bsBacked s.cfg a d.length)]) ∧
    (s.cfg.memSize.toNat < a.toNat + d.length →
      ∃ t u, exec (.writeRaw d a) s = .next t ∧
        t.responses = s.responses ++ [.fault (.backingStoreFault ⟨a, d.length, false⟩)] ∧
        exec (.readRaw a d.length) t = .next u ∧
        u.responses = t.responses ++ [.fault (.backingStoreFault ⟨a, d.length, true⟩)])

/-- R46: a 4-byte `READ_RAW` of a plain word returns the bytes that the four 1-byte ones return. -/
def Obligations.WideReadEqualsByteReads : Prop :=
  ∀ (s : State) (a : Addr), CfgOk s.cfg → a.toNat % 4 = 0 → SpanMisses a.toNat 4 s.cfg.stdinAddr.toNat →
    a.toNat + 4 ≤ s.cfg.memSize.toNat →
    ∃ d bk t, exec (.readRaw a 4) s = .next t ∧ t.responses = s.responses ++ [.raw d bk] ∧ d.length = 4 ∧
      ∀ k v, d[k]? = some v → ∃ bk' u, exec (.readRaw (a + BitVec.ofNat 32 k) 1) s = .next u ∧
        u.responses = s.responses ++ [.raw [v] bk']

/-- R124, R190: a write to the stdin word reaches the backing store, and no read of the stdin word depends
on the backing store. -/
def Obligations.StdinWordMemoryIsShadowed : Prop :=
  ∀ (s : State) (a : Addr), CfgOk s.cfg → InWord s.cfg.stdinAddr.toNat a.toNat →
    (∀ v, a.toNat < s.cfg.memSize.toNat → ∃ t, exec (.writeByte v a) s = .next t ∧ t.byteAt a.toNat = v ∧
      t.responses = s.responses ++ [.done]) ∧
    (∀ d, ValidSpan a.toNat d.length → a.toNat + d.length ≤ s.cfg.memSize.toNat →
      ∃ t, exec (.writeRaw d a) s = .next t ∧ t.bytesAt a.toNat d.length = d ∧
        t.responses = s.responses ++ [.done]) ∧
    (∀ (m : Memory) (t : State), exec (.readByte a) s = .next t →
      exec (.readByte a) { s with mem := m } = .next { t with mem := m }) ∧
    (∀ (m : Memory) (n : Nat) (t : State), exec (.readRaw a n) s = .next t →
      exec (.readRaw a n) { s with mem := m } = .next { t with mem := m })

/-! ### Result buffers -/

/-- R29: a caller write into a live view writes the backing store at once, at that address alone, cannot
fault, makes no response, and never reaches a device word. -/
def Obligations.ViewWriteReachesPlainMemory : Prop :=
  ∀ (s : State) (r k : Nat) (w : View) (v : Byte), SessionInv s → s.buffers[r]? = some (.live w) → k < w.len →
    ¬ InWord s.cfg.stdinAddr.toNat (w.start.toNat + k) ∧
    ¬ InWord s.cfg.stdoutAddr.toNat (w.start.toNat + k) ∧
    w.start.toNat + k < s.cfg.memSize.toNat ∧
    ∃ m, bufferWrite r k v s = .next { s with mem := m } ∧
      (∀ x, State.byteAt { s with mem := m } x = if x = w.start.toNat + k then v else s.byteAt x)

/-- R29, R52: a live view shows what a later write puts at its addresses, by either write operation, and
each element is always the backing store's byte at that time. -/
def Obligations.LiveViewShowsLaterWrites : Prop :=
  ∀ (s : State) (r k : Nat) (w : View), SessionInv s → s.buffers[r]? = some (.live w) → k < w.len →
    (∀ (v : Byte) (a : Addr), a.toNat = w.start.toNat + k →
      ∃ t, exec (.writeByte v a) s = .next t ∧ t.bufferElement r k = some v) ∧
    (∀ (i : Instr) (t : State), exec i s = .next t →
      t.bufferElement r k = some (t.byteAt (w.start.toNat + k))) ∧
    (∀ (d : List Byte) (a : Addr) (j : Nat) (v : Byte) (t : State), exec (.writeRaw d a) s = .next t →
      t.responses = s.responses ++ [.done] → d[j]? = some v → a.toNat + j = w.start.toNat + k →
      t.bufferElement r k = some v)

/-- R30: an independent copy does not change when memory does: no operation changes any of its elements. -/
def Obligations.CopiesNeverChangeUnderOperations : Prop :=
  ∀ (s t : State) (i : Instr) (r : Nat) (d : List Byte), s.buffers[r]? = some (.copy d) →
    exec i s = .next t → ∀ k, t.bufferElement r k = d[k]?

/-- R30, R103: a caller write into an independent copy changes only the caller's buffer, and no later
result: whatever the caller does next, for any number of steps, the two sessions end alike. -/
def Obligations.CopyWritesNeverReachTheBlock : Prop :=
  ∀ (s t : State) (r k : Nat) (v : Byte) (d : List Byte), s.buffers[r]? = some (.copy d) →
    bufferWrite r k v s = .next t →
    SameButCopies s t ∧
    ∀ n, EndAlike (Host.Core.run Sys2Proof.core n s) (Host.Core.run Sys2Proof.core n t)

/-! ### Construction, steps and runs -/

/-- R32, R9: what construction leaves, and that it refuses a configuration that breaks a constraint.
The refusal of initial memory outside the backing store is the model's (log 15). -/
def Obligations.ConstructionLeavesResetValues : Prop :=
  ∀ (c : Cfg) (m : Memory) (inp : List ReadAnswer) (outp : List WriteAnswer),
    (¬ CfgOk c → construct c m inp outp = .refused .illFormedConfig) ∧
    (CfgOk c → Memory.wf m → MemInRange m c.memSize.toNat →
      ∃ s, construct c m inp outp = .next s ∧ s.cfg = c ∧ s.mem = m ∧ s.inp = inp ∧ s.outp = outp ∧
        s.out = [] ∧ s.views = []) ∧
    (CfgOk c → ¬ (Memory.wf m ∧ MemInRange m c.memSize.toNat) →
      construct c m inp outp = .refused .illFormedMemory)

/-- The session invariant holds at reset. -/
def Obligations.ResetStateSatisfiesInv : Prop := SessionInv State.reset

/-- The session invariant holds after every construction, whatever the configuration, the setup's memory
image and the streams are. -/
def Obligations.ConstructedSessionSatisfiesInv : Prop :=
  (∀ c m inp outp s, construct c m inp outp = .next s → SessionInv s) ∧
  ∀ (c : Cfg) (image : List Byte) (inp : List ReadAnswer) (outp : List WriteAnswer), CfgOk c →
    image.length ≤ c.memSize.toNat →
    ∃ s, construct c (memOfImage image) inp outp = .next s ∧
      ∀ k v, image[k]? = some v → s.byteAt k = v

/-- R22, R25, R29, R91, R101: every step keeps the session invariant: a well-formed configuration, memory in
canonical form and in range, live views outside both device words, buffers that agree with them, and `out`
holding exactly the bytes the output stream took. -/
def Obligations.StepKeepsInv : Prop := ∀ s t : State, SessionInv s → step s = .next t → SessionInv t

/-- A step runs the decoded operation: when the next action is a request that decodes to `i`, the step is
`exec i` in the state with that action taken from the port. -/
def Obligations.StepRunsTheDecodedOperation : Prop :=
  ∀ (s : State) (q : Transaction) (rest : List CallerAction) (i : Instr), CfgOk s.cfg →
    s.port = .request q :: rest → decode q = .ok i → i.wellFormed = true →
    step s = exec i { s with port := rest }

/-- The model's choices about the port (logs 7, 9, 13, 14, 15) and the caller's writes: an idle block waits;
concurrent use, an ill-formed configuration and a transaction whose payload has not the length of its
header are refused; a caller write is performed as the next action. -/
def Obligations.StepOnOtherCallerActions : Prop :=
  ∀ s : State,
    (¬ CfgOk s.cfg → step s = .refused .illFormedConfig) ∧
    (CfgOk s.cfg → s.port = [] → step s = .next s) ∧
    (CfgOk s.cfg → ∀ p q rest, s.port = .concurrent p q :: rest → step s = .refused .concurrentUse) ∧
    (CfgOk s.cfg → ∀ q rest e g, s.port = .request q :: rest → decode q = .error (.payloadLength e g) →
      step s = .refused (.malformedRequest e g)) ∧
    (CfgOk s.cfg → ∀ r k v rest, s.port = .bufferWrite r k v :: rest →
      step s = bufferWrite r k v { s with port := rest }) ∧
    (∀ r k v, (∀ w, s.buffers[r]? = some (.live w) → w.len ≤ k) →
      (∀ d, s.buffers[r]? = some (.copy d) → d.length ≤ k) →
      bufferWrite r k v s = .refused (.noSuchBufferElement r k))

/-- R22, R25, R140: no run changes the configuration, so `SIZE` answers the same after any run. -/
def Obligations.ConfigurationNeverChanges : Prop :=
  ∀ (k : Nat) (s t : State), Host.Core.run Sys2Proof.core k s = .next t →
    t.cfg = s.cfg ∧
    exec .size t = .next { t with responses := t.responses ++ [.size s.cfg.memSize.toNat] }

/-- R50, R65: a run serves the caller's actions in issue order, one for each step, each request with exactly
one response, and the output stream only ever receives bytes after those it has. -/
def Obligations.RunServesActionsInOrder : Prop :=
  ∀ (k : Nat) (s t : State), Host.Core.run Sys2Proof.core k s = .next t →
    t.port = s.port.drop k ∧
    (∃ rs, t.responses = s.responses ++ rs ∧
      rs.length = ((s.port.take k).filter fun a => match a with | .request _ => true | _ => false).length) ∧
    (∃ bs, t.out = s.out ++ bs ∧ bs.length ≤ k) ∧
    (∃ j, j ≤ k ∧ t.inp = s.inp.drop j)
end

