-- ==== Sys2Proof/Laws/Backed.lean ====
section
/-! SUPPORT. The plain data of `bsBacked` loses no function of 00_scope.md R8. -/

namespace Sys2Proof.Machine

/-- Every function `Addr -> {1,2,4} -> Bool` is the flag of some `BackedMap` (log 11). -/
theorem backedMap_represents (f : Addr → Nat → Bool) (c : Cfg) :
    ∃ m : BackedMap, ∀ a n, n = 1 ∨ n = 2 ∨ n = 4 → bsBacked { c with backed := m } a n = f a n := by
  classical
  let listed : List (Addr × Nat) :=
    ((Finset.univ : Finset Addr).toList.product [1, 2, 4]).filter fun p => f p.1 p.2
  refine ⟨{ dflt := false, exceptions := listed }, fun a n hn => ?_⟩
  have hm : (a, n) ∈ listed ↔ f a n = true := by
    simpa [listed, List.mem_filter, List.pair_mem_product] using fun _ => hn
  unfold bsBacked
  by_cases h : f a n = true <;> simp [hm, h]

end Sys2Proof.Machine
end

