-- ==== Sys2Proof/Laws/State.lean ====
section
/-! SUPPORT. One lemma for each field of the state under each named update. -/

namespace Sys2Proof.Machine

@[simp] theorem State.putByte_cfg (s : State) (a : Nat) (v : Byte) : (s.putByte a v).cfg = s.cfg := rfl
@[simp] theorem State.putByte_mem (s : State) (a : Nat) (v : Byte) : (s.putByte a v).mem = memPut s.mem a v := rfl
@[simp] theorem State.putByte_inp (s : State) (a : Nat) (v : Byte) : (s.putByte a v).inp = s.inp := rfl
@[simp] theorem State.putByte_out (s : State) (a : Nat) (v : Byte) : (s.putByte a v).out = s.out := rfl
@[simp] theorem State.putByte_views (s : State) (a : Nat) (v : Byte) : (s.putByte a v).views = s.views := rfl
@[simp] theorem State.putByte_outp (s : State) (a : Nat) (v : Byte) : (s.putByte a v).outp = s.outp := rfl
@[simp] theorem State.putByte_calls (s : State) (a : Nat) (v : Byte) : (s.putByte a v).calls = s.calls := rfl
@[simp] theorem State.putByte_port (s : State) (a : Nat) (v : Byte) : (s.putByte a v).port = s.port := rfl
@[simp] theorem State.putByte_responses (s : State) (a : Nat) (v : Byte) : (s.putByte a v).responses = s.responses := rfl
@[simp] theorem State.putByte_buffers (s : State) (a : Nat) (v : Byte) : (s.putByte a v).buffers = s.buffers := rfl

@[simp] theorem State.putBytes_cfg (s : State) (a : Nat) (d : List Byte) : (s.putBytes a d).cfg = s.cfg := rfl
@[simp] theorem State.putBytes_mem (s : State) (a : Nat) (d : List Byte) : (s.putBytes a d).mem = memPutAll s.mem a d := rfl
@[simp] theorem State.putBytes_inp (s : State) (a : Nat) (d : List Byte) : (s.putBytes a d).inp = s.inp := rfl
@[simp] theorem State.putBytes_out (s : State) (a : Nat) (d : List Byte) : (s.putBytes a d).out = s.out := rfl
@[simp] theorem State.putBytes_views (s : State) (a : Nat) (d : List Byte) : (s.putBytes a d).views = s.views := rfl
@[simp] theorem State.putBytes_outp (s : State) (a : Nat) (d : List Byte) : (s.putBytes a d).outp = s.outp := rfl
@[simp] theorem State.putBytes_calls (s : State) (a : Nat) (d : List Byte) : (s.putBytes a d).calls = s.calls := rfl
@[simp] theorem State.putBytes_port (s : State) (a : Nat) (d : List Byte) : (s.putBytes a d).port = s.port := rfl
@[simp] theorem State.putBytes_responses (s : State) (a : Nat) (d : List Byte) : (s.putBytes a d).responses = s.responses := rfl
@[simp] theorem State.putBytes_buffers (s : State) (a : Nat) (d : List Byte) : (s.putBytes a d).buffers = s.buffers := rfl

@[simp] theorem State.afterRead_cfg (s : State) (b : Option Byte) (f : Option FaultValue) : (s.afterRead b f).cfg = s.cfg := rfl
@[simp] theorem State.afterRead_mem (s : State) (b : Option Byte) (f : Option FaultValue) : (s.afterRead b f).mem = s.mem := rfl
@[simp] theorem State.afterRead_inp (s : State) (b : Option Byte) (f : Option FaultValue) : (s.afterRead b f).inp = s.inp.tail := rfl
@[simp] theorem State.afterRead_out (s : State) (b : Option Byte) (f : Option FaultValue) : (s.afterRead b f).out = s.out := rfl
@[simp] theorem State.afterRead_views (s : State) (b : Option Byte) (f : Option FaultValue) : (s.afterRead b f).views = s.views := rfl
@[simp] theorem State.afterRead_outp (s : State) (b : Option Byte) (f : Option FaultValue) : (s.afterRead b f).outp = s.outp := rfl
@[simp] theorem State.afterRead_calls (s : State) (b : Option Byte) (f : Option FaultValue) : (s.afterRead b f).calls = s.calls ++ [.read b f] := rfl
@[simp] theorem State.afterRead_port (s : State) (b : Option Byte) (f : Option FaultValue) : (s.afterRead b f).port = s.port := rfl
@[simp] theorem State.afterRead_responses (s : State) (b : Option Byte) (f : Option FaultValue) : (s.afterRead b f).responses = s.responses := rfl
@[simp] theorem State.afterRead_buffers (s : State) (b : Option Byte) (f : Option FaultValue) : (s.afterRead b f).buffers = s.buffers := rfl

@[simp] theorem State.afterWrite_cfg (s : State) (v : Byte) (k : Bool) (f : Option FaultValue) : (s.afterWrite v k f).cfg = s.cfg := rfl
@[simp] theorem State.afterWrite_mem (s : State) (v : Byte) (k : Bool) (f : Option FaultValue) : (s.afterWrite v k f).mem = s.mem := rfl
@[simp] theorem State.afterWrite_inp (s : State) (v : Byte) (k : Bool) (f : Option FaultValue) : (s.afterWrite v k f).inp = s.inp := rfl
@[simp] theorem State.afterWrite_out (s : State) (v : Byte) (k : Bool) (f : Option FaultValue) : (s.afterWrite v k f).out = if k then s.out ++ [v] else s.out := rfl
@[simp] theorem State.afterWrite_views (s : State) (v : Byte) (k : Bool) (f : Option FaultValue) : (s.afterWrite v k f).views = s.views := rfl
@[simp] theorem State.afterWrite_outp (s : State) (v : Byte) (k : Bool) (f : Option FaultValue) : (s.afterWrite v k f).outp = s.outp.tail := rfl
@[simp] theorem State.afterWrite_calls (s : State) (v : Byte) (k : Bool) (f : Option FaultValue) : (s.afterWrite v k f).calls = s.calls ++ [.write v k f] := rfl
@[simp] theorem State.afterWrite_port (s : State) (v : Byte) (k : Bool) (f : Option FaultValue) : (s.afterWrite v k f).port = s.port := rfl
@[simp] theorem State.afterWrite_responses (s : State) (v : Byte) (k : Bool) (f : Option FaultValue) : (s.afterWrite v k f).responses = s.responses := rfl
@[simp] theorem State.afterWrite_buffers (s : State) (v : Byte) (k : Bool) (f : Option FaultValue) : (s.afterWrite v k f).buffers = s.buffers := rfl

@[simp] theorem State.respond_cfg (s : State) (r : Response) : (s.respond r).cfg = s.cfg := rfl
@[simp] theorem State.respond_mem (s : State) (r : Response) : (s.respond r).mem = s.mem := rfl
@[simp] theorem State.respond_inp (s : State) (r : Response) : (s.respond r).inp = s.inp := rfl
@[simp] theorem State.respond_out (s : State) (r : Response) : (s.respond r).out = s.out := rfl
@[simp] theorem State.respond_views (s : State) (r : Response) : (s.respond r).views = s.views := rfl
@[simp] theorem State.respond_outp (s : State) (r : Response) : (s.respond r).outp = s.outp := rfl
@[simp] theorem State.respond_calls (s : State) (r : Response) : (s.respond r).calls = s.calls := rfl
@[simp] theorem State.respond_port (s : State) (r : Response) : (s.respond r).port = s.port := rfl
@[simp] theorem State.respond_responses (s : State) (r : Response) : (s.respond r).responses = s.responses ++ [r] := rfl
@[simp] theorem State.respond_buffers (s : State) (r : Response) : (s.respond r).buffers = s.buffers := rfl

@[simp] theorem State.reportFault_cfg (s : State) (f : BlockFault) : (s.reportFault f).cfg = s.cfg := rfl
@[simp] theorem State.reportFault_mem (s : State) (f : BlockFault) : (s.reportFault f).mem = s.mem := rfl
@[simp] theorem State.reportFault_inp (s : State) (f : BlockFault) : (s.reportFault f).inp = s.inp := rfl
@[simp] theorem State.reportFault_out (s : State) (f : BlockFault) : (s.reportFault f).out = s.out := rfl
@[simp] theorem State.reportFault_views (s : State) (f : BlockFault) : (s.reportFault f).views = s.views := rfl
@[simp] theorem State.reportFault_outp (s : State) (f : BlockFault) : (s.reportFault f).outp = s.outp := rfl
@[simp] theorem State.reportFault_calls (s : State) (f : BlockFault) : (s.reportFault f).calls = s.calls := rfl
@[simp] theorem State.reportFault_port (s : State) (f : BlockFault) : (s.reportFault f).port = s.port := rfl
@[simp] theorem State.reportFault_responses (s : State) (f : BlockFault) : (s.reportFault f).responses = s.responses ++ [.fault f] := rfl
@[simp] theorem State.reportFault_buffers (s : State) (f : BlockFault) : (s.reportFault f).buffers = s.buffers := rfl

@[simp] theorem State.giveBuffer_cfg (s : State) (b : Buffer) : (s.giveBuffer b).cfg = s.cfg := rfl
@[simp] theorem State.giveBuffer_mem (s : State) (b : Buffer) : (s.giveBuffer b).mem = s.mem := rfl
@[simp] theorem State.giveBuffer_inp (s : State) (b : Buffer) : (s.giveBuffer b).inp = s.inp := rfl
@[simp] theorem State.giveBuffer_out (s : State) (b : Buffer) : (s.giveBuffer b).out = s.out := rfl
@[simp] theorem State.giveBuffer_views (s : State) (b : Buffer) : (s.giveBuffer b).views = s.views := rfl
@[simp] theorem State.giveBuffer_outp (s : State) (b : Buffer) : (s.giveBuffer b).outp = s.outp := rfl
@[simp] theorem State.giveBuffer_calls (s : State) (b : Buffer) : (s.giveBuffer b).calls = s.calls := rfl
@[simp] theorem State.giveBuffer_port (s : State) (b : Buffer) : (s.giveBuffer b).port = s.port := rfl
@[simp] theorem State.giveBuffer_responses (s : State) (b : Buffer) : (s.giveBuffer b).responses = s.responses := rfl
@[simp] theorem State.giveBuffer_buffers (s : State) (b : Buffer) : (s.giveBuffer b).buffers = s.buffers ++ [b] := rfl

@[simp] theorem State.addView_cfg (s : State) (v : View) : (s.addView v).cfg = s.cfg := rfl
@[simp] theorem State.addView_mem (s : State) (v : View) : (s.addView v).mem = s.mem := rfl
@[simp] theorem State.addView_inp (s : State) (v : View) : (s.addView v).inp = s.inp := rfl
@[simp] theorem State.addView_out (s : State) (v : View) : (s.addView v).out = s.out := rfl
@[simp] theorem State.addView_views (s : State) (v : View) : (s.addView v).views = if v ∈ s.views then s.views else s.views ++ [v] := rfl
@[simp] theorem State.addView_outp (s : State) (v : View) : (s.addView v).outp = s.outp := rfl
@[simp] theorem State.addView_calls (s : State) (v : View) : (s.addView v).calls = s.calls := rfl
@[simp] theorem State.addView_port (s : State) (v : View) : (s.addView v).port = s.port := rfl
@[simp] theorem State.addView_responses (s : State) (v : View) : (s.addView v).responses = s.responses := rfl
@[simp] theorem State.addView_buffers (s : State) (v : View) : (s.addView v).buffers = s.buffers := rfl

@[simp] theorem State.respondCopy_cfg (s : State) (d : List Byte) : (s.respondCopy d).cfg = s.cfg := rfl
@[simp] theorem State.respondCopy_mem (s : State) (d : List Byte) : (s.respondCopy d).mem = s.mem := rfl
@[simp] theorem State.respondCopy_inp (s : State) (d : List Byte) : (s.respondCopy d).inp = s.inp := rfl
@[simp] theorem State.respondCopy_out (s : State) (d : List Byte) : (s.respondCopy d).out = s.out := rfl
@[simp] theorem State.respondCopy_views (s : State) (d : List Byte) : (s.respondCopy d).views = s.views := rfl
@[simp] theorem State.respondCopy_outp (s : State) (d : List Byte) : (s.respondCopy d).outp = s.outp := rfl
@[simp] theorem State.respondCopy_calls (s : State) (d : List Byte) : (s.respondCopy d).calls = s.calls := rfl
@[simp] theorem State.respondCopy_port (s : State) (d : List Byte) : (s.respondCopy d).port = s.port := rfl
@[simp] theorem State.respondCopy_responses (s : State) (d : List Byte) : (s.respondCopy d).responses = s.responses ++ [.raw d false] := rfl
@[simp] theorem State.respondCopy_buffers (s : State) (d : List Byte) : (s.respondCopy d).buffers = s.buffers ++ [.copy d] := rfl

@[simp] theorem State.respondView_cfg (s : State) (v : View) (d : List Byte) : (s.respondView v d).cfg = s.cfg := rfl
@[simp] theorem State.respondView_mem (s : State) (v : View) (d : List Byte) : (s.respondView v d).mem = s.mem := rfl
@[simp] theorem State.respondView_inp (s : State) (v : View) (d : List Byte) : (s.respondView v d).inp = s.inp := rfl
@[simp] theorem State.respondView_out (s : State) (v : View) (d : List Byte) : (s.respondView v d).out = s.out := rfl
@[simp] theorem State.respondView_views (s : State) (v : View) (d : List Byte) : (s.respondView v d).views = if v ∈ s.views then s.views else s.views ++ [v] := rfl
@[simp] theorem State.respondView_outp (s : State) (v : View) (d : List Byte) : (s.respondView v d).outp = s.outp := rfl
@[simp] theorem State.respondView_calls (s : State) (v : View) (d : List Byte) : (s.respondView v d).calls = s.calls := rfl
@[simp] theorem State.respondView_port (s : State) (v : View) (d : List Byte) : (s.respondView v d).port = s.port := rfl
@[simp] theorem State.respondView_responses (s : State) (v : View) (d : List Byte) : (s.respondView v d).responses = s.responses ++ [.raw d true] := rfl
@[simp] theorem State.respondView_buffers (s : State) (v : View) (d : List Byte) : (s.respondView v d).buffers = s.buffers ++ [.live v] := rfl

@[simp] theorem State.respondRaw_cfg (s : State) (v : View) (d : List Byte) (flag : Bool) :
    (s.respondRaw v d flag).cfg = s.cfg := by cases flag <;> simp [State.respondRaw]
@[simp] theorem State.respondRaw_mem (s : State) (v : View) (d : List Byte) (flag : Bool) :
    (s.respondRaw v d flag).mem = s.mem := by cases flag <;> simp [State.respondRaw]
@[simp] theorem State.respondRaw_inp (s : State) (v : View) (d : List Byte) (flag : Bool) :
    (s.respondRaw v d flag).inp = s.inp := by cases flag <;> simp [State.respondRaw]
@[simp] theorem State.respondRaw_out (s : State) (v : View) (d : List Byte) (flag : Bool) :
    (s.respondRaw v d flag).out = s.out := by cases flag <;> simp [State.respondRaw]
@[simp] theorem State.respondRaw_views (s : State) (v : View) (d : List Byte) (flag : Bool) :
    (s.respondRaw v d flag).views = if flag ∧ v ∉ s.views then s.views ++ [v] else s.views := by
  cases flag <;> simp [State.respondRaw, ite_not]
@[simp] theorem State.respondRaw_outp (s : State) (v : View) (d : List Byte) (flag : Bool) :
    (s.respondRaw v d flag).outp = s.outp := by cases flag <;> simp [State.respondRaw]
@[simp] theorem State.respondRaw_calls (s : State) (v : View) (d : List Byte) (flag : Bool) :
    (s.respondRaw v d flag).calls = s.calls := by cases flag <;> simp [State.respondRaw]
@[simp] theorem State.respondRaw_port (s : State) (v : View) (d : List Byte) (flag : Bool) :
    (s.respondRaw v d flag).port = s.port := by cases flag <;> simp [State.respondRaw]
@[simp] theorem State.respondRaw_responses (s : State) (v : View) (d : List Byte) (flag : Bool) :
    (s.respondRaw v d flag).responses = s.responses ++ [.raw d flag] := by cases flag <;> simp [State.respondRaw]
@[simp] theorem State.respondRaw_buffers (s : State) (v : View) (d : List Byte) (flag : Bool) :
    (s.respondRaw v d flag).buffers = s.buffers ++ [if flag then .live v else .copy d] := by cases flag <;> simp [State.respondRaw]

@[simp] theorem presentRequest_cfg (s : State) (t : Transaction) : (presentRequest s t).cfg = s.cfg := rfl
@[simp] theorem presentRequest_mem (s : State) (t : Transaction) : (presentRequest s t).mem = s.mem := rfl
@[simp] theorem presentRequest_inp (s : State) (t : Transaction) : (presentRequest s t).inp = s.inp := rfl
@[simp] theorem presentRequest_out (s : State) (t : Transaction) : (presentRequest s t).out = s.out := rfl
@[simp] theorem presentRequest_views (s : State) (t : Transaction) : (presentRequest s t).views = s.views := rfl
@[simp] theorem presentRequest_outp (s : State) (t : Transaction) : (presentRequest s t).outp = s.outp := rfl
@[simp] theorem presentRequest_calls (s : State) (t : Transaction) : (presentRequest s t).calls = s.calls := rfl
@[simp] theorem presentRequest_port (s : State) (t : Transaction) : (presentRequest s t).port = .request t :: s.port := rfl
@[simp] theorem presentRequest_responses (s : State) (t : Transaction) : (presentRequest s t).responses = s.responses := rfl
@[simp] theorem presentRequest_buffers (s : State) (t : Transaction) : (presentRequest s t).buffers = s.buffers := rfl

/-- A byte of the backing store depends on its contents alone. -/
theorem State.byteAt_of_mem {s t : State} (h : t.mem = s.mem) (a : Nat) : t.byteAt a = s.byteAt a := by
  simp [State.byteAt, h]

@[simp] theorem State.bytesAt_length (s : State) (a n : Nat) : (s.bytesAt a n).length = n := by
  simp [State.bytesAt]

@[simp] theorem State.bytesAt_getElem (s : State) (a n k : Nat) (h : k < (s.bytesAt a n).length) :
    (s.bytesAt a n)[k] = s.byteAt (a + k) := by
  simp [State.bytesAt]

theorem State.bytesAt_of_mem {s t : State} (h : t.mem = s.mem) (a n : Nat) : t.bytesAt a n = s.bytesAt a n := by
  simp [State.bytesAt, State.byteAt_of_mem h]

@[simp] theorem zeros_length (n : Nat) : (zeros n).length = n := by simp [zeros]

/-- The state after reset is what construction gives for the same arguments (R32, R180). -/
theorem reset_is_construct : construct Config.cs241 [] [] [] = .next State.reset := by
  have h : CfgOk Config.cs241 := by decide
  have hm : Memory.wf ([] : Memory) ∧ MemInRange [] Config.cs241.memSize.toNat := by simp
  rw [construct, if_neg (fun n => n h), if_neg (fun n => n hm), State.reset]

end Sys2Proof.Machine
end

