-- ==== Sys2Proof/Laws/Memory.lean ====
section
/-! SUPPORT. The laws of the backing store's contents: read after write, what a write leaves alone, and
that every write keeps the canonical form and the range. -/

namespace Sys2Proof.Machine

@[simp] theorem memByte?_nil (a : Nat) : memByte? [] a = none := rfl

theorem memByte?_cons (c : Host.Cell) (m : Memory) (a : Nat) :
    memByte? (c :: m) a = if c.1 = a then some c.2 else memByte? m a := rfl

/-- Read after write, at the address written and elsewhere. -/
theorem memByte?_put (m : Memory) (a : Nat) (v : Byte) (x : Nat) :
    memByte? (memPut m a v) x = if x = a then some v else memByte? m x := by
  induction m with
  | nil => simp [memPut, memByte?_cons, eq_comm]
  | cons c m ih =>
    simp only [memPut]
    split_ifs <;> simp only [memByte?_cons, ih] <;> split_ifs <;> first | rfl | omega

theorem memByte?_put_self (m : Memory) (a : Nat) (v : Byte) : memByte? (memPut m a v) a = some v := by
  simp [memByte?_put]

theorem memByte?_put_other {m : Memory} {a x : Nat} (v : Byte) (h : x ≠ a) :
    memByte? (memPut m a v) x = memByte? m x := by
  simp [memByte?_put, h]

/-- What a write can list. -/
theorem mem_memPut {m : Memory} {a : Nat} {v : Byte} {c : Host.Cell} (h : c ∈ memPut m a v) :
    c = (a, v) ∨ c ∈ m := by
  induction m with
  | nil => simpa [memPut] using h
  | cons d m ih =>
    simp only [memPut] at h
    split_ifs at h with h1 h2
    · simpa using h
    · simp only [List.mem_cons] at h ⊢
      tauto
    · simp only [List.mem_cons] at h ⊢
      rcases h with h | h
      · exact .inr (.inl h)
      · rcases ih h with h | h
        · exact .inl h
        · exact .inr (.inr h)

/-- A write of one byte keeps the canonical form. -/
theorem memPut_wf {m : Memory} (h : Memory.wf m) (a : Nat) (v : Byte) : Memory.wf (memPut m a v) := by
  induction m with
  | nil => simp [memPut]
  | cons c m ih =>
    obtain ⟨hc, hm⟩ := List.pairwise_cons.1 h
    simp only [memPut]
    split_ifs with h1 h2
    · refine List.pairwise_cons.2 ⟨fun d hd => ?_, h⟩
      rcases List.mem_cons.1 hd with rfl | hd
      · exact h1
      · exact h1.trans (hc d hd)
    · refine List.pairwise_cons.2 ⟨fun d hd => ?_, hm⟩
      simpa [h2] using hc d hd
    · refine List.pairwise_cons.2 ⟨fun d hd => ?_, ih hm⟩
      rcases mem_memPut hd with rfl | hd
      · show c.1 < a
        omega
      · exact hc d hd

/-- A write in range keeps the range. -/
theorem memPut_inRange {m : Memory} {size a : Nat} (h : MemInRange m size) (ha : a < size) (v : Byte) :
    MemInRange (memPut m a v) size := fun c hc => by
  rcases mem_memPut hc with rfl | hc
  · exact ha
  · exact h c hc

/-- A buffer write keeps the canonical form. -/
theorem memPutAll_wf {m : Memory} (h : Memory.wf m) (a : Nat) (d : List Byte) :
    Memory.wf (memPutAll m a d) := by
  induction d generalizing m a with
  | nil => exact h
  | cons v d ih => exact ih (memPut_wf h a v) (a + 1)

/-- A buffer write in range keeps the range. -/
theorem memPutAll_inRange {m : Memory} {size a : Nat} {d : List Byte} (h : MemInRange m size)
    (ha : a + d.length ≤ size) : MemInRange (memPutAll m a d) size := by
  induction d generalizing m a with
  | nil => exact h
  | cons v d ih =>
    simp only [List.length_cons] at ha
    exact ih (memPut_inRange h (by omega) v) (by omega)

/-- A buffer write leaves every other address alone. -/
theorem memByte?_putAll_outside {m : Memory} {a x : Nat} {d : List Byte}
    (h : x < a ∨ a + d.length ≤ x) : memByte? (memPutAll m a d) x = memByte? m x := by
  induction d generalizing m a with
  | nil => rfl
  | cons v d ih =>
    simp only [List.length_cons] at h
    rw [memPutAll, ih (by omega), memByte?_put_other v (by omega)]

/-- R46: element `k` of a buffer goes to address `a + k`. -/
theorem memByte?_putAll_inside {m : Memory} {a k : Nat} {d : List Byte} (h : k < d.length) :
    memByte? (memPutAll m a d) (a + k) = some d[k] := by
  induction d generalizing m a k with
  | nil => simp at h
  | cons v d ih =>
    rw [memPutAll]
    cases k with
    | zero => rw [memByte?_putAll_outside (by omega)]; simp [memByte?_put]
    | succ k =>
      have := ih (m := memPut m a v) (a := a + 1) (k := k) (by simpa using h)
      rw [show a + (k + 1) = a + 1 + k by omega, this]
      simp

/-- An address below every listed one reads as unlisted. -/
theorem memByte?_below {m : Memory} {a : Nat} (h : ∀ c ∈ m, a < c.1) : memByte? m a = none := by
  induction m with
  | nil => rfl
  | cons c m ih =>
    have hc := h c (by simp)
    rw [memByte?_cons, if_neg (by omega), ih fun d hd => h d (by simp [hd])]

/-- Two memories in canonical form that read the same everywhere are the same list. -/
theorem memory_ext {m m' : Memory} (h : Memory.wf m) (h' : Memory.wf m')
    (eq : ∀ a, memByte? m a = memByte? m' a) : m = m' := by
  induction m generalizing m' with
  | nil =>
    cases m' with
    | nil => rfl
    | cons c m' => simpa [memByte?_cons] using eq c.1
  | cons c m ih =>
    cases m' with
    | nil => simpa [memByte?_cons] using eq c.1
    | cons d m' =>
      obtain ⟨hc, hm⟩ := List.pairwise_cons.1 h
      obtain ⟨hd, hm'⟩ := List.pairwise_cons.1 h'
      have key : c.1 = d.1 := by
        rcases lt_trichotomy c.1 d.1 with lt | e | lt
        · have := eq c.1
          rw [memByte?_cons, memByte?_cons, if_pos rfl, if_neg (by omega),
            memByte?_below fun e he => lt.trans (hd e he)] at this
          simp at this
        · exact e
        · have := eq d.1
          rw [memByte?_cons, memByte?_cons, if_pos rfl, if_neg (by omega),
            memByte?_below fun e he => lt.trans (hc e he)] at this
          simp at this
      have val : c.2 = d.2 := by
        have := eq c.1
        rw [memByte?_cons, memByte?_cons, if_pos rfl, if_pos key.symm] at this
        exact Option.some.inj this
      refine congrArg₂ _ (Prod.ext key val) (ih hm hm' fun a => ?_)
      by_cases ha : c.1 = a
      · subst ha
        rw [memByte?_below hc, memByte?_below (by simpa [key] using hd)]
      · have := eq a
        rwa [memByte?_cons, memByte?_cons, if_neg ha, if_neg (key ▸ ha)] at this

/-! ### The same, for the byte the block reads -/

theorem State.byteAt_putByte (s : State) (a : Nat) (v : Byte) (x : Nat) :
    (s.putByte a v).byteAt x = if x = a then v else s.byteAt x := by
  simp only [State.byteAt, State.putByte_mem, memByte?_put]
  split_ifs <;> rfl

theorem State.byteAt_putBytes_outside {s : State} {a x : Nat} {d : List Byte}
    (h : x < a ∨ a + d.length ≤ x) : (s.putBytes a d).byteAt x = s.byteAt x := by
  simp only [State.byteAt, State.putBytes_mem, memByte?_putAll_outside h]

theorem State.byteAt_putBytes_inside {s : State} {a k : Nat} {d : List Byte} (h : k < d.length) :
    (s.putBytes a d).byteAt (a + k) = d[k] := by
  simp only [State.byteAt, State.putBytes_mem, memByte?_putAll_inside h, Option.getD_some]

/-- Reading back the span just written gives the buffer written. -/
theorem State.bytesAt_putBytes (s : State) (a : Nat) (d : List Byte) :
    (s.putBytes a d).bytesAt a d.length = d := by
  refine List.ext_getElem (by simp) fun k h1 h2 => ?_
  rw [State.bytesAt_getElem, State.byteAt_putBytes_inside h2]

end Sys2Proof.Machine
end

