-- ==== Sys2Proof/Laws/Operations.lean ====
section
/-! SUPPORT. For each shared operation, once, everything it can answer. -/

namespace Sys2Proof.Machine

/-! ### The classifier, as arithmetic -/

theorem classify_crosses_iff (s n b : Nat) : classify s n b = .crossesBoundary ↔
    (s < b ∧ b < s + n) ∨ (b ≤ s ∧ s ≤ b + 3 ∧ b + 4 < s + n) := by
  unfold classify; split_ifs <;> simp <;> omega

theorem classify_first_iff (s n b : Nat) : classify s n b = .firstIsBoundary ↔ s = b ∧ n ≤ 4 := by
  unfold classify; split_ifs <;> simp <;> omega

theorem classify_later_iff (s n b : Nat) : classify s n b = .laterBytesInBoundary ↔
    b < s ∧ s ≤ b + 3 ∧ s + n ≤ b + 4 := by
  unfold classify; split_ifs <;> simp <;> omega

theorem classify_outside_iff (s n b : Nat) : classify s n b = .outsideBoundary ↔
    (s < b ∧ s + n ≤ b) ∨ b + 3 < s := by
  unfold classify; split_ifs <;> simp <;> omega

/-! ### Spans and device words -/

/-- An address is in a device word if it is the device byte or in the tail (R16). -/
theorem inWord_iff (b i : Addr) : InWord b.toNat i.toNat ↔ i = b ∨ InTail b.toNat i.toNat := by
  rw [← BitVec.toNat_inj]; simp only [InWord, InTail]; omega

theorem validSpan_pos {s n : Nat} (h : ValidSpan s n) : 0 < n := by
  simp only [ValidSpan] at h; omega

/-- R90, R101: a stream byte placed as the first byte of a zero-filled buffer. -/
theorem zeros_set_first {n : Nat} (h : 0 < n) (v : Byte) :
    (zeros n).set 0 v = v :: List.replicate (n - 1) 0#8 := by
  obtain ⟨m, rfl⟩ := Nat.exists_eq_add_of_lt h
  simp [zeros, List.replicate_succ]

/-- R121: `lastByte` is the last element where there is one. -/
theorem lastByte_of_getLast? {d : List Byte} {v : Byte} (h : d.getLast? = some v) : lastByte d = v := by
  simp [lastByte, List.getLastD_eq_getLast?, h]

/-- R121: a valid span's data has a last element. -/
theorem getLast?_of_validSpan {d : List Byte} {a : Nat} (h : ValidSpan a d.length) :
    d.getLast? = some (lastByte d) := by
  cases d with
  | nil => simp [ValidSpan] at h
  | cons x xs => simp [lastByte, List.getLastD_eq_getLast?, List.getLast?_eq_some_getLast]

/-! ### The DeviceRedirector -/

/-- R90: what `StreamIn` can answer. -/
theorem streamIn_cases (s : State) :
    (s.nextRead = .never ∧ streamIn s = .stuck) ∨
    (∃ b f, s.nextRead = .returned b (some f) ∧ streamIn s = .fault f (s.afterRead b (some f))) ∨
    (∃ b, s.nextRead = .returned b none ∧
      streamIn s = .ok (b.getD (Config.shortReadByte s.calls)) (s.afterRead b none)) := by
  unfold streamIn
  rcases h : s.nextRead with ⟨b, f⟩ | _
  · cases f with
    | some f => exact .inr (.inl ⟨b, f, rfl, rfl⟩)
    | none => exact .inr (.inr ⟨b, rfl, by cases b <;> rfl⟩)
  · exact .inl ⟨rfl, rfl⟩

/-- R91: what `StreamOut` can answer. -/
theorem streamOut_cases (v : Byte) (s : State) :
    (s.nextWrite v = .never ∧ streamOut v s = .stuck) ∨
    (∃ k f, s.nextWrite v = .returned k (some f) ∧ streamOut v s = .fault f (s.afterWrite v k (some f))) ∨
    (∃ k, s.nextWrite v = .returned k none ∧ streamOut v s = .ok () (s.afterWrite v k none)) := by
  unfold streamOut
  rcases h : s.nextWrite v with ⟨k, f⟩ | _
  · cases f with
    | some f => exact .inr (.inl ⟨k, f, rfl, rfl⟩)
    | none => exact .inr (.inr ⟨k, rfl, rfl⟩)
  · exact .inl ⟨rfl, rfl⟩

/-! ### The backing store -/

theorem bsReadOneByte_ok_iff (s : State) (a : Addr) (v : Byte) :
    bsReadOneByte s a = .ok v ↔ a.toNat < s.cfg.memSize.toNat ∧ v = s.byteAt a.toNat := by
  unfold bsReadOneByte; split_ifs with h <;> simp [h, eq_comm]

theorem bsReadOneByte_error_iff (s : State) (a : Addr) (f : AccessInfo) :
    bsReadOneByte s a = .error f ↔
      s.cfg.memSize.toNat ≤ a.toNat ∧ f = { location := a, numBytes := 1, wasRead := true } := by
  unfold bsReadOneByte; split_ifs with h <;> simp [h, eq_comm]; omega

theorem bsWriteOneByte_ok_iff (s t : State) (v : Byte) (a : Addr) :
    bsWriteOneByte s v a = .ok t ↔ a.toNat < s.cfg.memSize.toNat ∧ t = s.putByte a.toNat v := by
  unfold bsWriteOneByte; split_ifs with h <;> simp [h, eq_comm]

theorem bsWriteOneByte_error_iff (s : State) (v : Byte) (a : Addr) (f : AccessInfo) :
    bsWriteOneByte s v a = .error f ↔
      s.cfg.memSize.toNat ≤ a.toNat ∧ f = { location := a, numBytes := 1, wasRead := false } := by
  unfold bsWriteOneByte; split_ifs with h <;> simp [h, eq_comm]; omega

theorem bsReadRaw_ok_iff (s : State) (a : Addr) (n : Nat) (r : List Byte × Bool) :
    bsReadRaw s a n = .ok r ↔
      a.toNat + n ≤ s.cfg.memSize.toNat ∧ r = (s.bytesAt a.toNat n, bsBacked s.cfg a n) := by
  unfold bsReadRaw; split_ifs with h <;> simp [h, eq_comm]

theorem bsReadRaw_error_iff (s : State) (a : Addr) (n : Nat) (f : AccessInfo) :
    bsReadRaw s a n = .error f ↔
      s.cfg.memSize.toNat < a.toNat + n ∧ f = { location := a, numBytes := n, wasRead := true } := by
  unfold bsReadRaw; split_ifs with h <;> simp [h, eq_comm]; omega

theorem bsWriteRaw_ok_iff (s t : State) (d : List Byte) (a : Addr) :
    bsWriteRaw s d a = .ok t ↔
      a.toNat + d.length ≤ s.cfg.memSize.toNat ∧ t = s.putBytes a.toNat d := by
  unfold bsWriteRaw; split_ifs with h <;> simp [h, eq_comm]

theorem bsWriteRaw_error_iff (s : State) (d : List Byte) (a : Addr) (f : AccessInfo) :
    bsWriteRaw s d a = .error f ↔
      s.cfg.memSize.toNat < a.toNat + d.length ∧
        f = { location := a, numBytes := d.length, wasRead := false } := by
  unfold bsWriteRaw; split_ifs with h <;> simp [h, eq_comm]; omega

/-! ### The caller's result buffers -/

/-- R29, R30: what a caller write can do. -/
theorem bufferWrite_next {r k : Nat} {v : Byte} {s t : State} (h : bufferWrite r k v s = .next t) :
    (∃ w, s.buffers[r]? = some (.live w) ∧ w ∈ s.views ∧ k < w.len ∧
      t = s.putByte (w.start.toNat + k) v) ∨
    (∃ d, s.buffers[r]? = some (.copy d) ∧ k < d.length ∧
      t = { s with buffers := s.buffers.set r (.copy (d.set k v)) }) := by
  unfold bufferWrite at h
  rcases hb : s.buffers[r]? with _ | (w | d)
  · simp [hb] at h
  · rw [hb] at h
    simp only at h
    split_ifs at h with hk
    exact .inl ⟨w, rfl, hk.1, hk.2, (Host.Outcome.next.inj h).symm⟩
  · rw [hb] at h
    simp only at h
    split_ifs at h with hk
    exact .inr ⟨d, rfl, hk, (Host.Outcome.next.inj h).symm⟩

/-- R9, R32: what construction can answer. -/
theorem construct_next {c : Cfg} {m : Memory} {inp : List ReadAnswer} {outp : List WriteAnswer} {s : State}
    (h : construct c m inp outp = .next s) :
    CfgOk c ∧ Memory.wf m ∧ MemInRange m c.memSize.toNat ∧
      s = { cfg := c, mem := m, inp := inp, out := [], views := [], outp := outp
            calls := [], port := [], responses := [], buffers := [] } := by
  unfold construct at h
  by_cases hc : CfgOk c
  · by_cases hm : Memory.wf m ∧ MemInRange m c.memSize.toNat
    · rw [if_neg (fun n => n hc), if_neg (fun n => n hm)] at h
      exact ⟨hc, hm.1, hm.2, (Host.Outcome.next.inj h).symm⟩
    · rw [if_neg (fun n => n hc), if_pos hm] at h
      cases h
  · rw [if_pos hc] at h
    cases h

end Sys2Proof.Machine
end

