-- ==== Sys2Proof/Laws/Execution.lean ====
section
/-! SUPPORT. For each operation, once, every next state it can answer. -/

namespace Sys2Proof.Machine

/-- The response `StreamIn`'s answer leads to, `good` making it from the byte (R90). -/
def readResponse (s : State) (b : Option Byte) (f : Option FaultValue) (good : Byte → Response) : Response :=
  match f with
  | some f => .fault (.streamFault f)
  | none => good (b.getD (Config.shortReadByte s.calls))

/-- The response `StreamOut`'s answer leads to (R91). -/
def writeResponse (f : Option FaultValue) : Response :=
  match f with
  | some f => .fault (.streamFault f)
  | none => .done

/-- R100: the next states of `READ_BYTE`. -/
theorem execReadByte_next {i : Addr} {s t : State} (h : execReadByte i s = .next t) :
    (i = s.cfg.stdinAddr ∧ ∃ b f, s.nextRead = .returned b f ∧
      t = (s.afterRead b f).respond (readResponse s b f .byte)) ∨
    (i ≠ s.cfg.stdinAddr ∧ InTail s.cfg.stdinAddr.toNat i.toNat ∧ t = s.respond (.byte 0)) ∨
    (i ≠ s.cfg.stdinAddr ∧ ¬ InTail s.cfg.stdinAddr.toNat i.toNat ∧ i.toNat < s.cfg.memSize.toNat ∧
      t = s.respond (.byte (s.byteAt i.toNat))) ∨
    (i ≠ s.cfg.stdinAddr ∧ ¬ InTail s.cfg.stdinAddr.toNat i.toNat ∧ s.cfg.memSize.toNat ≤ i.toNat ∧
      t = s.reportFault (.backingStoreFault { location := i, numBytes := 1, wasRead := true })) := by
  unfold execReadByte at h
  by_cases h1 : i = s.cfg.stdinAddr
  · rw [if_pos h1] at h
    refine .inl ⟨h1, ?_⟩
    obtain ⟨_, e⟩ | ⟨b, f, hn, e⟩ | ⟨b, hn, e⟩ := streamIn_cases s <;> rw [e] at h
    · cases h
    · exact ⟨b, some f, hn, (Host.Outcome.next.inj h).symm⟩
    · exact ⟨b, none, hn, (Host.Outcome.next.inj h).symm⟩
  · rw [if_neg h1] at h
    by_cases h2 : InTail s.cfg.stdinAddr.toNat i.toNat
    · rw [if_pos h2] at h
      exact .inr (.inl ⟨h1, h2, (Host.Outcome.next.inj h).symm⟩)
    · rw [if_neg h2] at h
      rcases e : bsReadOneByte s i with f | v <;> rw [e] at h
      · obtain ⟨hr, rfl⟩ := (bsReadOneByte_error_iff ..).1 e
        exact .inr (.inr (.inr ⟨h1, h2, hr, (Host.Outcome.next.inj h).symm⟩))
      · obtain ⟨hr, rfl⟩ := (bsReadOneByte_ok_iff ..).1 e
        exact .inr (.inr (.inl ⟨h1, h2, hr, (Host.Outcome.next.inj h).symm⟩))

/-- R101: the next states of `READ_RAW`. -/
theorem execReadRaw_next {a : Addr} {n : Nat} {s t : State} (h : execReadRaw a n s = .next t) :
    ((¬ ValidSpan a.toNat n ∨ classify a.toNat n s.cfg.stdinAddr.toNat = .crossesBoundary) ∧
      t = s.reportFault (.accessViolation { location := a, numBytes := n, wasRead := true })) ∨
    (ValidSpan a.toNat n ∧ classify a.toNat n s.cfg.stdinAddr.toNat = .firstIsBoundary ∧
      ((∃ b, s.nextRead = .returned b none ∧ t = (s.afterRead b none).respondCopy
          ((zeros n).set 0 (b.getD (Config.shortReadByte s.calls)))) ∨
       (∃ b f, s.nextRead = .returned b (some f) ∧
          t = (s.afterRead b (some f)).reportFault (.streamFault f)))) ∨
    (ValidSpan a.toNat n ∧ classify a.toNat n s.cfg.stdinAddr.toNat = .laterBytesInBoundary ∧
      t = s.respondCopy (zeros n)) ∨
    (ValidSpan a.toNat n ∧ classify a.toNat n s.cfg.stdinAddr.toNat = .outsideBoundary ∧
      a.toNat + n ≤ s.cfg.memSize.toNat ∧
      t = s.respondRaw { start := a, len := n } (s.bytesAt a.toNat n)
        (plainReadFlag s.cfg a.toNat n (bsBacked s.cfg a n))) ∨
    (ValidSpan a.toNat n ∧ classify a.toNat n s.cfg.stdinAddr.toNat = .outsideBoundary ∧
      s.cfg.memSize.toNat < a.toNat + n ∧
      t = s.reportFault (.backingStoreFault { location := a, numBytes := n, wasRead := true })) := by
  unfold execReadRaw at h
  by_cases h1 : ValidSpan a.toNat n
  swap
  · rw [if_pos h1] at h
    exact .inl ⟨.inl h1, (Host.Outcome.next.inj h).symm⟩
  rw [if_neg (fun x => x h1)] at h
  rcases hc : classify a.toNat n s.cfg.stdinAddr.toNat with _ | _ | _ | _ <;> rw [hc] at h <;> simp only at h
  · exact .inl ⟨.inr rfl, (Host.Outcome.next.inj h).symm⟩
  · refine .inr (.inl ⟨h1, rfl, ?_⟩)
    obtain ⟨_, e⟩ | ⟨b, f, hn, e⟩ | ⟨b, hn, e⟩ := streamIn_cases s <;> rw [e] at h
    · cases h
    · exact .inr ⟨b, f, hn, (Host.Outcome.next.inj h).symm⟩
    · exact .inl ⟨b, hn, (Host.Outcome.next.inj h).symm⟩
  · exact .inr (.inr (.inl ⟨h1, rfl, (Host.Outcome.next.inj h).symm⟩))
  · rcases e : bsReadRaw s a n with f | ⟨d, bk⟩ <;> rw [e] at h
    · obtain ⟨hr, rfl⟩ := (bsReadRaw_error_iff ..).1 e
      exact .inr (.inr (.inr (.inr ⟨h1, rfl, hr, (Host.Outcome.next.inj h).symm⟩)))
    · obtain ⟨hr, hd⟩ := (bsReadRaw_ok_iff ..).1 e
      cases hd
      exact .inr (.inr (.inr (.inl ⟨h1, rfl, hr, (Host.Outcome.next.inj h).symm⟩)))

/-- R120: the next states of `WRITE_BYTE`. -/
theorem execWriteByte_next {v : Byte} {i : Addr} {s t : State} (h : execWriteByte v i s = .next t) :
    (i = s.cfg.stdoutAddr ∧ ∃ k f, s.nextWrite v = .returned k f ∧
      t = (s.afterWrite v k f).respond (writeResponse f)) ∨
    (i ≠ s.cfg.stdoutAddr ∧ InTail s.cfg.stdoutAddr.toNat i.toNat ∧ t = s.respond .done) ∨
    (i ≠ s.cfg.stdoutAddr ∧ ¬ InTail s.cfg.stdoutAddr.toNat i.toNat ∧ i.toNat < s.cfg.memSize.toNat ∧
      t = (s.putByte i.toNat v).respond .done) ∨
    (i ≠ s.cfg.stdoutAddr ∧ ¬ InTail s.cfg.stdoutAddr.toNat i.toNat ∧ s.cfg.memSize.toNat ≤ i.toNat ∧
      t = s.reportFault (.backingStoreFault { location := i, numBytes := 1, wasRead := false })) := by
  unfold execWriteByte at h
  by_cases h1 : i = s.cfg.stdoutAddr
  · rw [if_pos h1] at h
    refine .inl ⟨h1, ?_⟩
    obtain ⟨_, e⟩ | ⟨k, f, hn, e⟩ | ⟨k, hn, e⟩ := streamOut_cases v s <;> rw [e] at h
    · cases h
    · exact ⟨k, some f, hn, (Host.Outcome.next.inj h).symm⟩
    · exact ⟨k, none, hn, (Host.Outcome.next.inj h).symm⟩
  · rw [if_neg h1] at h
    by_cases h2 : InTail s.cfg.stdoutAddr.toNat i.toNat
    · rw [if_pos h2] at h
      exact .inr (.inl ⟨h1, h2, (Host.Outcome.next.inj h).symm⟩)
    · rw [if_neg h2] at h
      rcases e : bsWriteOneByte s v i with f | u <;> rw [e] at h
      · obtain ⟨hr, rfl⟩ := (bsWriteOneByte_error_iff ..).1 e
        exact .inr (.inr (.inr ⟨h1, h2, hr, (Host.Outcome.next.inj h).symm⟩))
      · obtain ⟨hr, rfl⟩ := (bsWriteOneByte_ok_iff ..).1 e
        exact .inr (.inr (.inl ⟨h1, h2, hr, (Host.Outcome.next.inj h).symm⟩))

/-- R121: the next states of `WRITE_RAW`. -/
theorem execWriteRaw_next {d : List Byte} {a : Addr} {s t : State} (h : execWriteRaw d a s = .next t) :
    ((¬ ValidSpan a.toNat d.length ∨ classify a.toNat d.length s.cfg.stdoutAddr.toNat = .crossesBoundary) ∧
      t = s.reportFault (.accessViolation { location := a, numBytes := d.length, wasRead := false })) ∨
    (ValidSpan a.toNat d.length ∧ classify a.toNat d.length s.cfg.stdoutAddr.toNat ≠ .crossesBoundary ∧
      a.toNat + d.length - 1 = s.cfg.stdoutAddr.toNat + 3 ∧
      ∃ k f, s.nextWrite (lastByte d) = .returned k f ∧
        t = (s.afterWrite (lastByte d) k f).respond (writeResponse f)) ∨
    (ValidSpan a.toNat d.length ∧ classify a.toNat d.length s.cfg.stdoutAddr.toNat ≠ .crossesBoundary ∧
      a.toNat + d.length - 1 ≠ s.cfg.stdoutAddr.toNat + 3 ∧ a.toNat + d.length ≤ s.cfg.memSize.toNat ∧
      t = (s.putBytes a.toNat d).respond .done) ∨
    (ValidSpan a.toNat d.length ∧ classify a.toNat d.length s.cfg.stdoutAddr.toNat ≠ .crossesBoundary ∧
      a.toNat + d.length - 1 ≠ s.cfg.stdoutAddr.toNat + 3 ∧ s.cfg.memSize.toNat < a.toNat + d.length ∧
      t = s.reportFault (.backingStoreFault { location := a, numBytes := d.length, wasRead := false })) := by
  unfold execWriteRaw at h
  by_cases h1 : ValidSpan a.toNat d.length
  swap
  · rw [if_pos h1] at h
    exact .inl ⟨.inl h1, (Host.Outcome.next.inj h).symm⟩
  rw [if_neg (fun x => x h1)] at h
  by_cases h2 : classify a.toNat d.length s.cfg.stdoutAddr.toNat = .crossesBoundary
  · rw [if_pos h2] at h
    exact .inl ⟨.inr h2, (Host.Outcome.next.inj h).symm⟩
  rw [if_neg h2] at h
  by_cases h3 : a.toNat + d.length - 1 = s.cfg.stdoutAddr.toNat + 3
  · rw [if_pos h3] at h
    refine .inr (.inl ⟨h1, h2, h3, ?_⟩)
    obtain ⟨_, e⟩ | ⟨k, f, hn, e⟩ | ⟨k, hn, e⟩ := streamOut_cases (lastByte d) s <;> rw [e] at h
    · cases h
    · exact ⟨k, some f, hn, (Host.Outcome.next.inj h).symm⟩
    · exact ⟨k, none, hn, (Host.Outcome.next.inj h).symm⟩
  · rw [if_neg h3] at h
    rcases e : bsWriteRaw s d a with f | u <;> rw [e] at h
    · obtain ⟨hr, rfl⟩ := (bsWriteRaw_error_iff ..).1 e
      exact .inr (.inr (.inr ⟨h1, h2, h3, hr, (Host.Outcome.next.inj h).symm⟩))
    · obtain ⟨hr, rfl⟩ := (bsWriteRaw_ok_iff ..).1 e
      exact .inr (.inr (.inl ⟨h1, h2, h3, hr, (Host.Outcome.next.inj h).symm⟩))

/-- What a step can do. -/
theorem step_next {s t : State} (h : step s = .next t) :
    CfgOk s.cfg ∧
    ((s.port = [] ∧ t = s) ∨
     (∃ q rest i, s.port = .request q :: rest ∧ decodeRequest q = .ok i ∧
        exec i { s with port := rest } = .next t) ∨
     (∃ r k v rest, s.port = .bufferWrite r k v :: rest ∧
        bufferWrite r k v { s with port := rest } = .next t)) := by
  unfold step at h
  by_cases hc : CfgOk s.cfg
  · rw [if_pos hc] at h
    refine ⟨hc, ?_⟩
    rcases hp : s.port with _ | ⟨q | ⟨r, k, v⟩ | _, rest⟩ <;> rw [hp] at h <;> simp only at h
    · exact .inl ⟨rfl, (Host.Outcome.next.inj h).symm⟩
    · rcases e : decodeRequest q with _ | i <;> rw [e] at h
      · cases h
      · exact .inr (.inl ⟨q, rest, i, rfl, e, h⟩)
    · exact .inr (.inr ⟨r, k, v, rest, rfl, h⟩)
    · cases h
  · rw [if_neg hc] at h
    cases h

/-- A run of one step more, of any machine. -/
theorem core_run_succ (M : Host.Core) (k : Nat) (s : M.State) : M.run (k + 1) s =
    match M.step s with
    | .next u => M.run k u
    | .fault r => .fault r
    | .refused r => .refused r := by
  cases e : M.step s <;> simp only [Host.Core.run, e]

/-- A run of one step more, by what its first step answers. -/
theorem run_succ (k : Nat) (s : State) : Host.Core.run Sys2Proof.core (k + 1) s =
    match step s with
    | .next u => Host.Core.run Sys2Proof.core k u
    | .fault r => .fault r
    | .refused r => .refused r := by
  have e : Host.Core.step Sys2Proof.core s = step s := rfl
  rw [core_run_succ Sys2Proof.core k s]
  generalize Host.Core.step Sys2Proof.core s = o at *
  subst e
  cases step s <;> rfl

/-- A property that every step keeps holds after any run. -/
theorem run_keeps {P : State → Prop} (hstep : ∀ s t, P s → step s = .next t → P t) {k : Nat} {s t : State}
    (hs : P s) (h : Host.Core.run Sys2Proof.core k s = .next t) : P t := by
  induction k generalizing s with
  | zero => exact (Host.Outcome.next.inj h) ▸ hs
  | succ k ih =>
    rw [run_succ] at h
    rcases e : step s with u | _ | _ <;> rw [e] at h
    · exact ih (hstep s u hs e) h
    · cases h
    · cases h

end Sys2Proof.Machine
end

