-- ==== Sys2Proof/Laws/PerInstr.lean ====
section
/-! SUPPORT. The header's two fields, and what the encoder makes of each operation. -/

namespace Sys2Proof

@[simp] theorem headerOp_makeHeader (n : Nat) (op : BitVec 8) : headerOp (makeHeader n op) = op := by
  apply BitVec.eq_of_toNat_eq
  have := op.isLt
  simp only [headerOp, makeHeader, BitVec.extractLsb'_toNat, BitVec.toNat_append, Nat.shiftRight_zero]
  rw [← Nat.shiftLeft_add_eq_or_of_lt op.isLt, Nat.shiftLeft_eq]
  omega

theorem headerLen_makeHeader {n : Nat} (h : n < 2 ^ 24) (op : BitVec 8) : headerLen (makeHeader n op) = n := by
  have := op.isLt
  simp only [headerLen, makeHeader, BitVec.extractLsb'_toNat, BitVec.toNat_append, BitVec.toNat_ofNat]
  rw [← Nat.shiftLeft_add_eq_or_of_lt op.isLt, Nat.shiftLeft_eq, Nat.shiftRight_eq_div_pow]
  omega

/-- The two fields determine the header (R60). -/
theorem makeHeader_fields (h : BitVec 32) : makeHeader (headerLen h) (headerOp h) = h := by
  apply BitVec.eq_of_toNat_eq
  have := h.isLt
  have hop := (headerOp h).isLt
  simp only [makeHeader, BitVec.toNat_append, BitVec.toNat_ofNat]
  rw [← Nat.shiftLeft_add_eq_or_of_lt hop, Nat.shiftLeft_eq]
  simp only [headerLen, headerOp, BitVec.extractLsb'_toNat, Nat.shiftRight_eq_div_pow]
  omega

theorem headerLen_lt (h : BitVec 32) : headerLen h < 2 ^ 24 := (h.extractLsb' 8 24).isLt

/-- A number's bytes: their count. -/
@[simp] theorem bytesLE_length (n v : Nat) : (bytesLE n v).length = n := by
  induction n generalizing v with
  | zero => rfl
  | succ n ih => simp [bytesLE, ih]

/-- R60, R62, R63: the encoder writes the operation's code and a payload of the length its header gives. -/
def Laws.EncodedShape.Statement (i : Instr) : Prop :=
  i.wellFormed = true →
    headerOp (encode i).header = i.opcode ∧ (encode i).payload.length = payloadLength (encode i).header

theorem Laws.EncodedShape.readByte (index : Addr) : Laws.EncodedShape.Statement (.readByte index) := by
  intro _; simp [encode, Instr.opcode, payloadLength]

theorem Laws.EncodedShape.readRaw (start : Addr) (numBytes : Nat) :
    Laws.EncodedShape.Statement (.readRaw start numBytes) := by
  intro _; simp [encode, Instr.opcode, payloadLength]

theorem Laws.EncodedShape.writeByte (val : Byte) (index : Addr) :
    Laws.EncodedShape.Statement (.writeByte val index) := by
  intro _; simp [encode, Instr.opcode, payloadLength]

theorem Laws.EncodedShape.writeRaw (data : List Byte) (start : Addr) :
    Laws.EncodedShape.Statement (.writeRaw data start) := by
  intro h
  simp [encode, Instr.opcode, payloadLength, headerLen_makeHeader (of_decide_eq_true h)]

theorem Laws.EncodedShape.size : Laws.EncodedShape.Statement .size := by
  intro _; simp [encode, Instr.opcode, payloadLength]

end Sys2Proof
end

