-- ==== Sys2Proof/Tests/Slice0.lean ====
section
/-! SUPPORT. The model's own tests. Words and expected results are the spec's (30_encoding.md R69;
95_test_vectors.md, configuration `TC`), and each statement's hypotheses are met by a concrete state. -/

namespace Sys2Proof.Tests

open Sys2Proof Sys2Proof.Machine

/-! ### Small states -/

/-- 92_eei_decisions.md D26, configuration `TC`. -/
def tcCfg : Cfg where
  stdinAddr := 0x80#32
  stdoutAddr := 0x90#32
  memSize := 0x100#33
  backed := { dflt := true, exceptions := [] }

/-- 95_test_vectors.md `M0`, its listed bytes. -/
def m0 : Memory :=
  [(0x10, 0x11#8), (0x11, 0x22#8), (0x12, 0x33#8), (0x13, 0x44#8),
   (0x80, 0x55#8), (0x81, 0x66#8), (0x82, 0x77#8), (0x83, 0x88#8), (0x84, 0x99#8),
   (0x90, 0xAA#8), (0x91, 0xBB#8), (0x92, 0xCC#8), (0x93, 0xDD#8),
   (0xFC, 0xF0#8), (0xFD, 0xF1#8), (0xFE, 0xF2#8), (0xFF, 0xF3#8)]

/-- A session in `TC` with `M0` and the given stream answers. -/
def tc (inp : List ReadAnswer) (outp : List WriteAnswer) : State :=
  { State.reset with cfg := tcCfg, mem := m0, inp := inp, outp := outp }

/-- 95_test_vectors.md `I0`, its first call: the byte 'H'. -/
def tcIn : State := tc [.returned (some 0x48#8) none] []

/-- An output stream that takes the byte. -/
def tcOut : State := tc [] [.returned true none]

/-- A session that holds a live view and an independent copy. -/
def tcBuffers : State :=
  { tcIn with
    views := [⟨0x10#32, 4⟩]
    buffers := [.live ⟨0x10#32, 4⟩, .copy [0xAA#8, 0xBB#8, 0xCC#8, 0xDD#8]] }

/-- `TC` with one request presented. -/
def tcRequest (header : BitVec 32) (addr : Addr) (payload : List Byte) : State :=
  presentRequest tcIn ⟨header, addr, payload⟩

/-- The last response of an outcome that is a next state. -/
def answer : Host.Outcome State Fault Refusal → Option Response
  | .next t => t.responses.getLast?
  | .fault _ => none
  | .refused _ => none

/-- The refusal of an outcome that is one. -/
def refusal : Host.Outcome State Fault Refusal → Option Refusal
  | .next _ => none
  | .fault _ => none
  | .refused r => some r

/-- The state an outcome leads to, if it is a next state. -/
def after : Host.Outcome State Fault Refusal → Option State
  | .next t => some t
  | .fault _ => none
  | .refused _ => none

/-! ### Well-formedness: an ill-formed term for each check -/

theorem test_wellFormed_readRaw_24_bits : (Instr.readRaw 0#32 (2 ^ 24)).wellFormed = false := by decide

theorem test_wellFormed_writeRaw_24_bits (d : List Byte) (h : d.length = 2 ^ 24) :
    (Instr.writeRaw d 0#32).wellFormed = false := by
  simp [Instr.wellFormed, h]

theorem test_cfg_stdin_unaligned : ¬ CfgOk { tcCfg with stdinAddr := 0x82#32 } := by decide

theorem test_cfg_stdout_unaligned : ¬ CfgOk { tcCfg with stdoutAddr := 0x91#32 } := by decide

theorem test_cfg_words_distinct : ¬ CfgOk { tcCfg with stdoutAddr := 0x80#32 } := by decide

theorem test_cfg_memSize_too_large : ¬ CfgOk { tcCfg with memSize := 0x100000001#33 } := by decide

/-! ### Decoding: words written out from R60, R63 and R69 -/

theorem test_decode_readByte_len_ignored : decode ⟨0xFFFFFF01#32, 0x80#32, []⟩ = .ok (.readByte 0x80#32) := by
  decide

theorem test_decode_readRaw :
    decode ⟨0b00000000000000000000010000000010#32, 0x80#32, []⟩ = .ok (.readRaw 0x80#32 4) := by decide

theorem test_decode_writeByte : decode ⟨0x00000003#32, 0x90#32, [0x41#8]⟩ = .ok (.writeByte 0x41#8 0x90#32) := by
  decide

theorem test_decode_writeRaw :
    decode ⟨0x00000204#32, 0x92#32, [0x00#8, 0x42#8]⟩ = .ok (.writeRaw [0x00#8, 0x42#8] 0x92#32) := by decide

theorem test_decode_size : decode ⟨0x00000005#32, 0#32, []⟩ = .ok .size := by decide

theorem test_decode_reserved :
    decode ⟨0x00000000#32, 0#32, []⟩ = .error (.reservedOp 0x00#8) ∧
    decode ⟨0x00000006#32, 0#32, []⟩ = .error (.reservedOp 0x06#8) ∧
    decode ⟨0x000004FF#32, 0#32, []⟩ = .error (.reservedOp 0xFF#8) := by decide

theorem test_decode_short_payload :
    decode ⟨0x00000404#32, 0x90#32, [1#8]⟩ = .error (.payloadLength 4 1) := by decide

theorem test_decodeTableWord :
    decodeTableWord 32 1 = some (.readByte 0#32) ∧ decodeTableWord 32 2 = some (.readRaw 0#32 0) ∧
    decodeTableWord 32 3 = some (.writeByte 0#8 0#32) ∧ decodeTableWord 32 4 = some (.writeRaw [] 0#32) ∧
    decodeTableWord 32 5 = some .size ∧
    decodeTableWord 72 0x410000009000000103 = some (.writeByte 0x41#8 0x90#32) := by decide

/-- R66, 95_test_vectors.md 2.8: two whole responses. -/
theorem test_response_bytes :
    responseBytes (.raw [0x48#8, 0#8, 0#8, 0#8] false) = [0x00#8, 0x00#8, 0x48#8, 0#8, 0#8, 0#8] ∧
    responseBytes (.fault (.accessViolation ⟨0x81#32, 2, true⟩)) =
      [0x01#8, 0x81#8, 0#8, 0#8, 0#8, 0x02#8, 0#8, 0#8, 0#8, 0x01#8] := by decide

/-! ### The classifier and the operations: vectors of 95_test_vectors.md -/

/-- Section 2.1, the last paragraph: the sum does not wrap. -/
theorem test_classify_top_of_space :
    classify 0xFFFFFFFC 4 0xFFFFFFFC = .firstIsBoundary ∧
    classify 0xFFFFFFFE 4 0xFFFFFFFC = .crossesBoundary := by decide

/-- Section 2.1, the crossing rows. -/
theorem test_classify_crossings :
    classify 0x7F 2 0x80 = .crossesBoundary ∧ classify 0x7C 8 0x80 = .crossesBoundary ∧
    classify 0x82 3 0x80 = .crossesBoundary ∧ classify 0x80 5 0x80 = .crossesBoundary ∧
    classify 0x7E 2 0x80 = .outsideBoundary ∧ classify 0x84 4 0x80 = .outsideBoundary := by decide

/-- Section 2.3. -/
theorem test_readByte_device_and_plain :
    answer (exec (.readByte 0x80#32) tcIn) = some (.byte 0x48#8) ∧
    answer (exec (.readByte 0x83#32) tcIn) = some (.byte 0x00#8) ∧
    answer (exec (.readByte 0x84#32) tcIn) = some (.byte 0x99#8) ∧
    answer (exec (.readByte 0x93#32) tcIn) = some (.byte 0xDD#8) := by decide

theorem test_readByte_out_of_range :
    answer (exec (.readByte 0x100#32) tcIn) = some (.fault (.backingStoreFault ⟨0x100#32, 1, true⟩)) := by decide

/-- Section 2.4. -/
theorem test_readRaw_device_word :
    answer (exec (.readRaw 0x80#32 4) tcIn) = some (.raw [0x48#8, 0#8, 0#8, 0#8] false) ∧
    answer (exec (.readRaw 0x82#32 2) tcIn) = some (.raw [0#8, 0#8] false) ∧
    answer (exec (.readRaw 0x92#32 2) tcIn) = some (.raw [0xCC#8, 0xDD#8] false) := by decide

theorem test_readRaw_plain_and_faults :
    answer (exec (.readRaw 0xFC#32 4) tcIn) = some (.raw [0xF0#8, 0xF1#8, 0xF2#8, 0xF3#8] true) ∧
    answer (exec (.readRaw 0xFE#32 4) tcIn) = some (.fault (.accessViolation ⟨0xFE#32, 4, true⟩)) ∧
    answer (exec (.readRaw 0x100#32 4) tcIn) = some (.fault (.backingStoreFault ⟨0x100#32, 4, true⟩)) := by
  decide

/-- Section 2.5. -/
theorem test_writeByte_emits :
    (after (exec (.writeByte 0x41#8 0x90#32) tcOut)).map (fun t => (t.out, memByte? t.mem 0x90)) =
      some ([0x41#8], some 0xAA#8) := by decide

theorem test_writeByte_stdin_word_is_memory :
    (after (exec (.writeByte 0x44#8 0x81#32) tcOut)).map (fun t => (t.out, memByte? t.mem 0x81)) =
      some ([], some 0x44#8) := by decide

/-- Section 2.6. -/
theorem test_writeRaw_emits_last_byte :
    (after (exec (.writeRaw [0x00#8, 0x42#8] 0x92#32) tcOut)).map (fun t => (t.out, memByte? t.mem 0x93)) =
      some ([0x42#8], some 0xDD#8) := by decide

theorem test_writeRaw_subword_is_memory :
    (after (exec (.writeRaw [0x45#8, 0x46#8] 0x90#32) tcOut)).map
      (fun t => (t.out, memByte? t.mem 0x90, memByte? t.mem 0x91)) =
      some ([], some 0x45#8, some 0x46#8) := by decide

/-- Section 2.7. -/
theorem test_size : answer (exec .size tcIn) = some (.size 0x100) := by decide

/-- Section 2.2: a byte and a fault together: the fault wins. -/
theorem test_stream_fault_wins :
    answer (exec (.readByte 0x80#32) (tc [.returned (some 1#8) (some [7#8])] [])) =
      some (.fault (.streamFault [7#8])) ∧
    (after (exec (.writeByte 0x41#8 0x90#32) (tc [] [.returned true (some [7#8])]))).map (fun t => t.out) =
      some [0x41#8] := by decide

/-- Section 3, P2 steps 3 and 7: `VW` into a live view and into a copy. -/
theorem test_bufferWrite :
    (after (bufferWrite 0 0 0xEE#8 tcBuffers)).map (fun t => memByte? t.mem 0x10) = some (some 0xEE#8) ∧
    (after (bufferWrite 1 0 0x00#8 tcBuffers)).map (fun t => (t.mem = tcBuffers.mem, t.bufferElement 1 0)) =
      some (True, some 0x00#8) := by
  refine ⟨by decide, ?_⟩
  simp [after, bufferWrite, tcBuffers, State.bufferElement]

/-- A step runs the request on the port, from a number too. -/
theorem test_step_runs_request :
    answer (step (tcRequest 0x00000402#32 0x80#32 [])) = some (.raw [0x48#8, 0#8, 0#8, 0#8] false) ∧
    answer (step (State.reset.withFetchWord 32 5)) = some (.size 0x01000000) := by decide

theorem test_step_refuses_reserved :
    refusal (step (tcRequest 0x00000007#32 0x80#32 [])) = some (.illegalRequest 0x07#8) := by decide

/-! ### The statements' hypotheses are met -/

theorem witness_cfgOk : CfgOk tcCfg ∧ CfgOk Config.cs241 := by decide

theorem witness_DecodeEncodeRoundTrip : (Instr.readRaw 0x80#32 (2 ^ 24 - 1)).wellFormed = true := by decide

theorem witness_DecodedTransactionIsCanonical :
    decode ⟨0xFFFFFF05#32, 7#32, []⟩ = .ok .size ∧ decode ⟨0xFFFFFF02#32, 7#32, []⟩ = .ok (.readRaw 7#32 0xFFFFFF) := by
  decide

theorem witness_OpcodeMapDecodes : (2 ^ 24 - 1 < 2 ^ 24) ∧ ([1#8] : List Byte).length < 2 ^ 24 := by decide

theorem witness_ReservedOpIsRefused :
    CfgOk (tcRequest 0x000004FF#32 0#32 []).cfg ∧
    (tcRequest 0x000004FF#32 0#32 []).port = [.request ⟨0x000004FF#32, 0#32, []⟩] ∧
    6 ≤ (headerOp 0x000004FF#32).toNat ∧ 6 ≤ (headerOp 0x00000006#32).toNat ∧ headerOp 0xFFFFFF00#32 = 0#8 := by
  decide

theorem witness_ResponsePayloadLayout :
    2 ^ 32 < 2 ^ 64 ∧ (⟨0x81#32, 2 ^ 24 - 1, true⟩ : AccessInfo).numBytes < 2 ^ 32 := by decide

/-- A span that misses a device word lies before it or after it. -/
theorem spanMisses_of {a n b : Nat} (h : a + n ≤ b ∨ b + 3 < a) : SpanMisses a n b :=
  fun x h1 h2 h3 => by rcases h with h | h <;> simp only [InWord] at h3 <;> omega

theorem witness_ClassifyTellsOverlap : 0 < 1 ∧ SpanMisses 0x7C 4 0x80 ∧ SpanMisses 0x84 4 0x80 :=
  ⟨by decide, spanMisses_of (by decide), spanMisses_of (by decide)⟩

theorem witness_ClassifyCornerCases :
    InTail 0x80 0x81 ∧ InTail 0x80 0x83 ∧ ¬ InWord 0x80 0x7F ∧ ¬ InWord 0x80 0x84 ∧ 4 < 5 ∧
    (0x7C + 4 = 0x80 ∧ 0 < 4) := by decide

theorem witness_ValidSpanTags :
    ValidSpan 0x80 4 ∧ ValidSpan 0x82 2 ∧ ValidSpan 0x83 1 ∧ 0x80 % 4 = 0 ∧
    (InWord 0x80 0x82 ∧ 0x82 + 2 - 1 = 0x80 + 3) := by decide

theorem witness_ValidSpanLiesInOneBlock : ValidSpan 0x92 2 ∧ CfgOk tcCfg := by decide

theorem witness_ReadByteResult_stream :
    (0x80#32 = tcIn.cfg.stdinAddr ∧ tcIn.nextRead = .returned (some 0x48#8) none) ∧
    (tc [.returned none none] []).nextRead = .returned none none ∧
    (tc [.returned none (some [1#8])] []).nextRead = .returned none (some [1#8]) := by decide

theorem witness_ReadByteResult_memory :
    InTail tcIn.cfg.stdinAddr.toNat 0x81 ∧ InTail tcIn.cfg.stdinAddr.toNat 0x83 ∧
    (¬ InWord tcIn.cfg.stdinAddr.toNat (0x84#32).toNat ∧ (0x84#32).toNat < tcIn.cfg.memSize.toNat) ∧
    (¬ InWord tcIn.cfg.stdinAddr.toNat (0xFF#32).toNat ∧ (0xFF#32).toNat < tcIn.cfg.memSize.toNat) ∧
    (¬ InWord tcIn.cfg.stdinAddr.toNat (0x100#32).toNat ∧ tcIn.cfg.memSize.toNat ≤ (0x100#32).toNat) := by decide

theorem witness_ReadRawResult :
    CfgOk tcIn.cfg ∧ ¬ ValidSpan (0x80#32).toNat 3 ∧ ValidSpan (0x80#32).toNat 4 ∧
    tcIn.nextRead = .returned (some 0x48#8) none ∧
    (InTail tcIn.cfg.stdinAddr.toNat (0x83#32).toNat ∧ ValidSpan (0x83#32).toNat 1) ∧
    (ValidSpan (0x100#32).toNat 1 ∧ tcIn.cfg.memSize.toNat < (0x100#32).toNat + 1) ∧
    (ValidSpan (0x90#32).toNat 4 ∧ (0x90#32).toNat + 4 ≤ tcIn.cfg.memSize.toNat ∧
      InWord tcIn.cfg.stdoutAddr.toNat (0x90#32).toNat) ∧
    (ValidSpan (0xFC#32).toNat 4 ∧ (0xFC#32).toNat + 4 ≤ tcIn.cfg.memSize.toNat ∧
      bsBacked tcIn.cfg 0xFC#32 4 = true) ∧
    bsBacked { tcCfg with backed := ⟨true, [(0xFC#32, 4)]⟩ } 0xFC#32 4 = false := by decide

theorem witness_ReadRawResult_misses :
    SpanMisses (0x100#32).toNat 1 tcIn.cfg.stdinAddr.toNat ∧ SpanMisses (0x90#32).toNat 4 tcIn.cfg.stdinAddr.toNat ∧
    SpanMisses (0xFC#32).toNat 4 tcIn.cfg.stdinAddr.toNat ∧ SpanMisses (0xFC#32).toNat 4 tcIn.cfg.stdoutAddr.toNat :=
  ⟨spanMisses_of (by decide), spanMisses_of (by decide), spanMisses_of (by decide), spanMisses_of (by decide)⟩

theorem witness_WriteByteResult :
    (0x90#32 = tcOut.cfg.stdoutAddr ∧ tcOut.nextWrite 0x41#8 = .returned true none) ∧
    (tc [] [.returned false (some [1#8])]).nextWrite 0x41#8 = .returned false (some [1#8]) ∧
    InTail tcOut.cfg.stdoutAddr.toNat (0x91#32).toNat ∧ InTail tcOut.cfg.stdoutAddr.toNat (0x93#32).toNat ∧
    (¬ InWord tcOut.cfg.stdoutAddr.toNat (0x94#32).toNat ∧ (0x94#32).toNat < tcOut.cfg.memSize.toNat) ∧
    (¬ InWord tcOut.cfg.stdoutAddr.toNat (0xFF#32).toNat ∧ (0xFF#32).toNat < tcOut.cfg.memSize.toNat) ∧
    (¬ InWord tcOut.cfg.stdoutAddr.toNat (0x100#32).toNat ∧ tcOut.cfg.memSize.toNat ≤ (0x100#32).toNat) := by
  decide

theorem witness_WriteRawResult :
    CfgOk tcOut.cfg ∧ ¬ ValidSpan (0x90#32).toNat ([] : List Byte).length ∧
    (ValidSpan (0x92#32).toNat [0#8, 0x42#8].length ∧
      (0x92#32).toNat + [0#8, 0x42#8].length - 1 = tcOut.cfg.stdoutAddr.toNat + 3 ∧
      [0#8, 0x42#8].getLast? = some 0x42#8 ∧ tcOut.nextWrite 0x42#8 = .returned true none) ∧
    (tc [] [.returned true (some [])]).nextWrite 0x42#8 = .returned true (some []) ∧
    (ValidSpan (0x90#32).toNat [1#8, 2#8].length ∧
      (0x90#32).toNat + [1#8, 2#8].length - 1 ≠ tcOut.cfg.stdoutAddr.toNat + 3 ∧
      (0x90#32).toNat + [1#8, 2#8].length ≤ tcOut.cfg.memSize.toNat) ∧
    (ValidSpan (0x100#32).toNat [1#8].length ∧
      (0x100#32).toNat + [1#8].length - 1 ≠ tcOut.cfg.stdoutAddr.toNat + 3 ∧
      tcOut.cfg.memSize.toNat < (0x100#32).toNat + [1#8].length) := by decide

theorem witness_PlainWritePlacesBytes :
    CfgOk tcOut.cfg ∧ ValidSpan (0xFC#32).toNat [1#8, 2#8, 3#8, 4#8].length ∧
    (0xFC#32).toNat + [1#8, 2#8, 3#8, 4#8].length - 1 ≠ tcOut.cfg.stdoutAddr.toNat + 3 ∧
    (0xFC#32).toNat + [1#8, 2#8, 3#8, 4#8].length ≤ tcOut.cfg.memSize.toNat := by decide

theorem witness_WriteRawInsideStdoutWord :
    CfgOk tcOut.cfg ∧ 0x90#32 = tcOut.cfg.stdoutAddr ∧ tcOut.nextWrite 0x41#8 = .returned true none ∧
    (0x90#32).toNat + 2 + [0x48#8].length ≤ tcOut.cfg.memSize.toNat ∧
    (CfgOk Config.cs241 ∧
      Config.cs241.memSize.toNat < Config.cs241.stdoutAddr.toNat + 0 + [0x41#8].length) := by decide

theorem witness_WritePropertiesAreOfWriteByte :
    CfgOk tcOut.cfg ∧ tcOut.nextWrite 0x41#8 = .returned true none ∧
    InTail tcOut.cfg.stdoutAddr.toNat (0x93#32).toNat ∧ tcOut.cfg.stdoutAddr.toNat < tcOut.cfg.memSize.toNat := by
  decide

theorem witness_SilentStreamLeavesBlockStuck :
    CfgOk tcCfg ∧ (tc [.never] []).nextRead = .never ∧ ReadsStream tcCfg (.readByte 0x80#32) ∧
    ReadsStream tcCfg (.readRaw 0x80#32 4) ∧ (tc [] [.never]).nextWrite 0x41#8 = .never ∧
    WritesStream tcCfg (.writeByte 0x41#8 0x90#32) 0x41#8 ∧ WritesStream tcCfg (.writeRaw [0x41#8] 0x93#32) 0x41#8 :=
  ⟨by decide, by decide, rfl, ⟨by decide, rfl⟩, by decide, ⟨rfl, rfl⟩, ⟨by decide, by decide, by decide⟩⟩

/-- With an answer listed for each stream, neither oracle is asked. -/
theorem witness_EveryOperationCompletes :
    (tc [.returned (some 1#8) none] [.returned true none]).nextRead ≠ .never ∧
    ∀ v, (tc [.returned (some 1#8) none] [.returned true none]).nextWrite v ≠ .never :=
  ⟨by decide, fun _ => by simp [tc, State.nextWrite]⟩

/-- Next states that the frames, the table of faults and the rules of the whole block speak of. -/
theorem witness_frames :
    (after (exec (.readRaw 0x10#32 4) tcIn)).isSome ∧ (after (exec (.readByte 0x80#32) tcIn)).isSome ∧
    (after (exec .size tcIn)).isSome ∧ (after (exec (.writeByte 1#8 0x20#32) tcOut)).isSome ∧
    (after (exec (.writeByte 1#8 0x100#32) tcOut)).isSome ∧
    (after (exec (.writeRaw [1#8, 2#8] 0x20#32) tcOut)).isSome ∧
    (after (exec (.writeRaw [1#8] 0x93#32) tcOut)).isSome := by decide

/-- A next state and its one response, for the statements that name both. -/
theorem witness_answers :
    (∃ t, exec (.readRaw 0x80#32 3) tcIn = .next t ∧ CfgOk tcIn.cfg ∧
      t.responses = tcIn.responses ++ [.fault (.accessViolation ⟨0x80#32, 3, true⟩)]) ∧
    (∃ t, exec (.readByte 0x100#32) tcIn = .next t ∧
      t.responses = tcIn.responses ++ [.fault (.backingStoreFault ⟨0x100#32, 1, true⟩)]) ∧
    (∃ t, exec (.readByte 0x80#32) (tc [.returned none (some [1#8])] []) = .next t ∧
      t.responses = tcIn.responses ++ [.fault (.streamFault [1#8])] ∧ ReadsStream tcCfg (.readByte 0x80#32)) ∧
    (∃ t, exec (.writeByte 1#8 0x90#32) (tc [] [.returned true (some [1#8])]) = .next t ∧
      t.responses = tcIn.responses ++ [.fault (.streamFault [1#8])] ∧
      WritesStream tcCfg (.writeByte 1#8 0x90#32) 1#8) ∧
    (∃ t, exec (.readRaw 0xFC#32 4) tcIn = .next t ∧
      t.responses = tcIn.responses ++ [.raw [0xF0#8, 0xF1#8, 0xF2#8, 0xF3#8] true]) :=
  ⟨⟨_, rfl, by decide, rfl⟩, ⟨_, rfl, rfl⟩, ⟨_, rfl, rfl, rfl⟩, ⟨_, rfl, rfl, rfl, rfl⟩, ⟨_, rfl, rfl⟩⟩

/-- An operation that calls no stream and one that reads a stream without a fault. -/
theorem witness_NoFaultWithoutCause :
    CfgOk tcIn.cfg ∧ NoFaultOccurred tcIn ∧
    (∀ info, ¬ MustViolate (.readByte 0x80#32) info ∧ ¬ MustMissStore tcIn.cfg (.readByte 0x80#32) info) ∧
    (ReadsStream tcIn.cfg (.readByte 0x80#32) → ∃ b, tcIn.nextRead = .returned b none) ∧
    ∀ v, WritesStream tcIn.cfg (.readByte 0x80#32) v → ∃ k, tcIn.nextWrite v = .returned k none :=
  ⟨by decide, by decide, fun _ => ⟨fun h => h, fun h => absurd h.1 (by decide)⟩,
    fun _ => ⟨some 0x48#8, rfl⟩, fun _ h => h.elim⟩

theorem witness_AtMostOneStreamCall :
    CfgOk tcIn.cfg ∧ ReadsStream tcCfg (.readRaw 0x80#32 2) ∧ WritesStream tcCfg (.writeRaw [1#8, 2#8] 0x92#32) 2#8 ∧
    ¬ ReadsStream tcCfg (.readByte 0x81#32) ∧ ∀ v, ¬ WritesStream tcCfg (.writeByte 1#8 0x91#32) v :=
  ⟨by decide, ⟨by decide, rfl⟩, ⟨by decide, by decide, by decide⟩,
    fun h => absurd h (show (0x81#32 : Addr) ≠ 0x80#32 by decide), fun _ h => absurd h.1 (by decide)⟩

theorem witness_PlainReadsEqualBackingStore :
    CfgOk tcIn.cfg ∧ ¬ InWord tcIn.cfg.stdinAddr.toNat (0x84#32).toNat ∧
    ¬ InWord tcIn.cfg.stdoutAddr.toNat (0x84#32).toNat ∧ ValidSpan (0x84#32).toNat 4 ∧
    SpanMisses (0x84#32).toNat 4 tcIn.cfg.stdinAddr.toNat ∧ SpanMisses (0x84#32).toNat 4 tcIn.cfg.stdoutAddr.toNat :=
  ⟨by decide, by decide, by decide, by decide, spanMisses_of (by decide), spanMisses_of (by decide)⟩

theorem witness_WriteThenReadRoundTrip :
    CfgOk tcIn.cfg ∧ ValidSpan (0xFC#32).toNat [1#8, 2#8, 3#8, 4#8].length ∧
    SpanMisses (0xFC#32).toNat 4 tcIn.cfg.stdinAddr.toNat ∧ SpanMisses (0xFC#32).toNat 4 tcIn.cfg.stdoutAddr.toNat ∧
    (0xFC#32).toNat + 4 ≤ tcIn.cfg.memSize.toNat ∧
    (ValidSpan (0x100#32).toNat [1#8].length ∧ SpanMisses (0x100#32).toNat 1 tcIn.cfg.stdinAddr.toNat ∧
      SpanMisses (0x100#32).toNat 1 tcIn.cfg.stdoutAddr.toNat ∧ tcIn.cfg.memSize.toNat < (0x100#32).toNat + 1) :=
  ⟨by decide, by decide, spanMisses_of (by decide), spanMisses_of (by decide), by decide, by decide,
    spanMisses_of (by decide), spanMisses_of (by decide), by decide⟩

theorem witness_WideReadEqualsByteReads :
    CfgOk tcIn.cfg ∧ (0xFC#32).toNat % 4 = 0 ∧ SpanMisses (0xFC#32).toNat 4 tcIn.cfg.stdinAddr.toNat ∧
    (0xFC#32).toNat + 4 ≤ tcIn.cfg.memSize.toNat :=
  ⟨by decide, by decide, spanMisses_of (by decide), by decide⟩

theorem witness_StdinWordMemoryIsShadowed :
    CfgOk tcIn.cfg ∧ InWord tcIn.cfg.stdinAddr.toNat (0x83#32).toNat ∧ (0x83#32).toNat < tcIn.cfg.memSize.toNat ∧
    ValidSpan (0x82#32).toNat [1#8, 2#8].length ∧ (0x82#32).toNat + [1#8, 2#8].length ≤ tcIn.cfg.memSize.toNat ∧
    (after (exec (.readByte 0x83#32) tcIn)).isSome ∧ (after (exec (.readRaw 0x82#32 2) tcIn)).isSome := by decide

/-- A session that meets the invariant and holds a live view and a copy. -/
theorem witness_sessionInv : SessionInv tcBuffers where
  cfgOk := by decide
  memWf := by decide
  memInRange := by decide
  viewsNodup := by decide
  viewsOk v hv := by
    obtain rfl : v = ⟨0x10#32, 4⟩ := by simpa [tcBuffers] using hv
    exact ⟨by decide, by decide, by decide, by decide, by decide⟩
  buffersOk b hb := by
    obtain rfl | rfl : b = .live ⟨0x10#32, 4⟩ ∨ b = .copy [0xAA#8, 0xBB#8, 0xCC#8, 0xDD#8] := by
      simpa [tcBuffers] using hb
    · show (⟨0x10#32, 4⟩ : View) ∈ tcBuffers.views
      decide
    · exact .inr (.inr rfl)
  outTaken := by decide

theorem witness_ViewWriteReachesPlainMemory :
    SessionInv tcBuffers ∧ tcBuffers.buffers[0]? = some (.live ⟨0x10#32, 4⟩) ∧ 3 < 4 :=
  ⟨witness_sessionInv, rfl, by decide⟩

theorem witness_LiveViewShowsLaterWrites :
    (0x13#32).toNat = (0x10#32).toNat + 3 ∧
    (∃ t, exec (.writeRaw [9#8, 8#8] 0x12#32) tcBuffers = .next t ∧ t.responses = tcBuffers.responses ++ [.done]) ∧
    [9#8, 8#8][1]? = some 8#8 ∧ (0x12#32).toNat + 1 = (0x10#32).toNat + 3 :=
  ⟨by decide, ⟨_, rfl, rfl⟩, rfl, by decide⟩

theorem witness_CopyStatements :
    tcBuffers.buffers[1]? = some (.copy [0xAA#8, 0xBB#8, 0xCC#8, 0xDD#8]) ∧
    (∃ t, bufferWrite 1 3 0#8 tcBuffers = .next t) ∧ (∃ t, exec .size tcBuffers = .next t) :=
  ⟨rfl, ⟨_, rfl⟩, ⟨_, rfl⟩⟩

theorem witness_ConstructionLeavesResetValues :
    ¬ CfgOk { tcCfg with stdinAddr := 0x82#32 } ∧ (CfgOk tcCfg ∧ Memory.wf m0 ∧ MemInRange m0 tcCfg.memSize.toNat) ∧
    ¬ MemInRange [(0x100, 0#8)] tcCfg.memSize.toNat ∧ ¬ Memory.wf [(1, 0#8), (1, 0#8)] := by decide

theorem witness_ConstructedSessionSatisfiesInv :
    (after (construct tcCfg m0 [] [])).isSome ∧ CfgOk tcCfg ∧
    ([0x11#8, 0x22#8] : List Byte).length ≤ tcCfg.memSize.toNat ∧ ([0x11#8, 0x22#8] : List Byte)[1]? = some 0x22#8 := by
  decide

/-- A step from a state that meets the invariant, on a request. -/
theorem witness_StepKeepsInv :
    SessionInv { tcBuffers with port := [.request ⟨0x00000402#32, 0x80#32, []⟩] } ∧
    ∃ t, step { tcBuffers with port := [.request ⟨0x00000402#32, 0x80#32, []⟩] } = .next t :=
  ⟨{ cfgOk := witness_sessionInv.cfgOk
     memWf := witness_sessionInv.memWf
     memInRange := witness_sessionInv.memInRange
     viewsNodup := witness_sessionInv.viewsNodup
     viewsOk := witness_sessionInv.viewsOk
     buffersOk := fun b hb => by
       have := witness_sessionInv.buffersOk b hb
       cases b <;> exact this
     outTaken := witness_sessionInv.outTaken }, ⟨_, rfl⟩⟩

theorem witness_StepRunsTheDecodedOperation :
    CfgOk tcIn.cfg ∧ (tcRequest 0x00000402#32 0x80#32 []).port = [.request ⟨0x00000402#32, 0x80#32, []⟩] ∧
    decode ⟨0x00000402#32, 0x80#32, []⟩ = .ok (.readRaw 0x80#32 4) ∧
    (Instr.readRaw 0x80#32 4).wellFormed = true := by decide

theorem witness_StepOnOtherCallerActions :
    ¬ CfgOk { tcIn with cfg := { tcCfg with stdinAddr := 0x82#32 } }.cfg ∧ (CfgOk tcIn.cfg ∧ tcIn.port = []) ∧
    { tcIn with port := [.concurrent ⟨1#32, 0#32, []⟩ ⟨5#32, 0#32, []⟩] }.port =
      [.concurrent ⟨1#32, 0#32, []⟩ ⟨5#32, 0#32, []⟩] ∧
    decode ⟨0x00000003#32, 0#32, []⟩ = .error (.payloadLength 1 0) ∧
    { tcBuffers with port := [.bufferWrite 1 0 0#8] }.port = [.bufferWrite 1 0 0#8] ∧
    (∀ w, tcBuffers.buffers[0]? = some (.live w) → w.len ≤ 4) ∧
    (∀ d, tcBuffers.buffers[1]? = some (.copy d) → d.length ≤ 4) := by
  refine ⟨by decide, by decide, rfl, by decide, rfl, ?_, ?_⟩
  · intro w h; cases h; decide
  · intro d h; cases h; decide

theorem witness_runs :
    ∃ t, Host.Core.run Sys2Proof.core 1 (tcRequest 0x00000402#32 0x80#32 []) = .next t ∧ t.cfg = tcCfg :=
  ⟨_, rfl, rfl⟩

end Sys2Proof.Tests
end

section
/-! What a step does beside running an operation, and the session invariant along a step (`00_scope.md`). -/

namespace Sys2Proof.Machine

/-! ### One step, by the caller's next action -/

theorem step_of_not_cfgOk {s : State} (h : ¬ CfgOk s.cfg) : step s = .refused .illFormedConfig := by
  rw [step, if_neg h]

theorem step_of_idle {s : State} (h : CfgOk s.cfg) (hp : s.port = []) : step s = .next s := by
  rw [step, if_pos h, hp]

theorem step_of_concurrent {s : State} {p q : Transaction} {rest : List CallerAction} (h : CfgOk s.cfg)
    (hp : s.port = .concurrent p q :: rest) : step s = .refused .concurrentUse := by
  rw [step, if_pos h, hp]

theorem step_of_bufferWrite {s : State} {r k : Nat} {v : Byte} {rest : List CallerAction}
    (h : CfgOk s.cfg) (hp : s.port = .bufferWrite r k v :: rest) :
    step s = bufferWrite r k v { s with port := rest } := by
  rw [step, if_pos h, hp]

theorem step_of_refused_request {s : State} {q : Transaction} {rest : List CallerAction} {e : Refusal}
    (h : CfgOk s.cfg) (hp : s.port = .request q :: rest) (hq : decodeRequest q = .error e) :
    step s = .refused e := by
  rw [step, if_pos h, hp]
  simp only [hq]

theorem decodeRequest_of_payloadLength {q : Transaction} {e g : Nat}
    (h : decode q = .error (.payloadLength e g)) : decodeRequest q = .error (.malformedRequest e g) := by
  rw [decodeRequest, h]

/-- R29: a caller write past the end of its buffer, or into no buffer, is refused. -/
theorem bufferWrite_of_no_element {r k : Nat} {s : State} (v : Byte)
    (hlive : ∀ w, s.buffers[r]? = some (.live w) → w.len ≤ k)
    (hcopy : ∀ d, s.buffers[r]? = some (.copy d) → d.length ≤ k) :
    bufferWrite r k v s = .refused (.noSuchBufferElement r k) := by
  unfold bufferWrite
  rcases hb : s.buffers[r]? with _ | (w | d)
  · rfl
  · have hk := hlive w hb
    exact if_neg fun ⟨_, hlt⟩ => by omega
  · have hk := hcopy d hb
    exact if_neg (by omega)

/-- Settles O46: each clause is the step on one kind of caller action. -/
theorem stepOnOtherCallerActions : Obligations.StepOnOtherCallerActions := fun _ =>
  ⟨step_of_not_cfgOk,
   step_of_idle,
   fun hc _ _ _ hp => step_of_concurrent hc hp,
   fun hc _ _ _ _ hp hq => step_of_refused_request hc hp (decodeRequest_of_payloadLength hq),
   fun hc _ _ _ _ hp => step_of_bufferWrite hc hp,
   fun _ _ v => bufferWrite_of_no_element v⟩

/-! ### The session invariant under each state update -/

/-- The views are all that a buffer's condition takes from the state, and more views keep it. -/
theorem BufferOk.mono {s t : State} {b : Buffer} (h : BufferOk s b) (hv : s.views ⊆ t.views) :
    BufferOk t b := by
  cases b with
  | live v => exact hv h
  | copy d => exact h

/-- What the invariant rests on: nothing of the streams' coming answers, the port and the responses. -/
theorem SessionInv.congr {s t : State} (h : SessionInv s) (hcfg : t.cfg = s.cfg) (hmem : t.mem = s.mem)
    (hviews : t.views = s.views) (hbufs : t.buffers = s.buffers)
    (hout : t.out = t.calls.filterMap takenByte) : SessionInv t where
  cfgOk := hcfg ▸ h.cfgOk
  memWf := hmem ▸ h.memWf
  memInRange := by rw [hcfg, hmem]; exact h.memInRange
  viewsNodup := hviews ▸ h.viewsNodup
  viewsOk := by rw [hcfg, hviews]; exact h.viewsOk
  buffersOk b hb := (h.buffersOk b (hbufs ▸ hb)).mono (hviews ▸ List.Subset.refl _)
  outTaken := hout

theorem SessionInv.withPort {s : State} (h : SessionInv s) (rest : List CallerAction) :
    SessionInv { s with port := rest } := h.congr rfl rfl rfl rfl h.outTaken

theorem SessionInv.respond {s : State} (h : SessionInv s) (r : Response) : SessionInv (s.respond r) :=
  h.congr rfl rfl rfl rfl h.outTaken

theorem SessionInv.reportFault {s : State} (h : SessionInv s) (f : BlockFault) :
    SessionInv (s.reportFault f) := h.respond (.fault f)

/-- Memory may change to any other canonical contents in range. -/
theorem SessionInv.withMem {s : State} (h : SessionInv s) {m : Memory} (hwf : Memory.wf m)
    (hr : MemInRange m s.cfg.memSize.toNat) : SessionInv { s with mem := m } where
  cfgOk := h.cfgOk
  memWf := hwf
  memInRange := hr
  viewsNodup := h.viewsNodup
  viewsOk := h.viewsOk
  buffersOk b hb := (h.buffersOk b hb).mono (List.Subset.refl _)
  outTaken := h.outTaken

theorem SessionInv.putByte {s : State} (h : SessionInv s) {a : Nat} (ha : a < s.cfg.memSize.toNat)
    (v : Byte) : SessionInv (s.putByte a v) :=
  h.withMem (memPut_wf h.memWf a v) (memPut_inRange h.memInRange ha v)

theorem SessionInv.putBytes {s : State} (h : SessionInv s) {a : Nat} {d : List Byte}
    (ha : a + d.length ≤ s.cfg.memSize.toNat) : SessionInv (s.putBytes a d) :=
  h.withMem (memPutAll_wf h.memWf a d) (memPutAll_inRange h.memInRange ha)

/-- A read call gives the output stream nothing. -/
theorem SessionInv.afterRead {s : State} (h : SessionInv s) (b : Option Byte) (f : Option FaultValue) :
    SessionInv (s.afterRead b f) :=
  h.congr rfl rfl rfl rfl (by simp [h.outTaken, takenByte])

/-- R91: `out` and the record of calls both gain the byte, or neither does. -/
theorem SessionInv.afterWrite {s : State} (h : SessionInv s) (v : Byte) (taken : Bool)
    (f : Option FaultValue) : SessionInv (s.afterWrite v taken f) :=
  h.congr rfl rfl rfl rfl (by cases taken <;> simp [h.outTaken, takenByte])

/-- The caller's buffers may change to any others that meet their condition. -/
theorem SessionInv.withBuffers {s : State} (h : SessionInv s) {bs : List Buffer}
    (hb : ∀ b ∈ bs, BufferOk s b) : SessionInv { s with buffers := bs } where
  cfgOk := h.cfgOk
  memWf := h.memWf
  memInRange := h.memInRange
  viewsNodup := h.viewsNodup
  viewsOk := h.viewsOk
  buffersOk b hm := (hb b hm).mono (List.Subset.refl _)
  outTaken := h.outTaken

theorem SessionInv.giveBuffer {s : State} (h : SessionInv s) {b : Buffer} (hb : BufferOk s b) :
    SessionInv (s.giveBuffer b) :=
  h.withBuffers fun c hc => by
    obtain hc | hc := List.mem_append.1 hc
    · exact h.buffersOk c hc
    · exact List.mem_singleton.1 hc ▸ hb

/-- R29: a caller write into a copy keeps its length. -/
theorem SessionInv.setCopy {s : State} (h : SessionInv s) {r : Nat} {d : List Byte}
    (hr : s.buffers[r]? = some (.copy d)) (k : Nat) (v : Byte) :
    SessionInv { s with buffers := s.buffers.set r (.copy (d.set k v)) } :=
  h.withBuffers fun c hc => by
    obtain hc | rfl := List.mem_or_eq_of_mem_set hc
    · exact h.buffersOk c hc
    · have hd : BufferOk s (.copy d) := h.buffersOk _ (List.mem_of_getElem? hr)
      simpa only [BufferOk, List.length_set] using hd

/-! ### Results of `READ_RAW` -/

theorem State.mem_addView {s : State} {v w : View} : w ∈ (s.addView v).views ↔ w ∈ s.views ∨ w = v := by
  rw [State.addView_views]
  split_ifs with hv
  · exact ⟨.inl, fun h => h.elim id fun e => e ▸ hv⟩
  · simp

/-- R29: the set of live views may gain one that is what R101 makes a view. -/
theorem SessionInv.addView {s : State} (h : SessionInv s) {v : View} (hv : ViewOk s.cfg v) :
    SessionInv (s.addView v) where
  cfgOk := h.cfgOk
  memWf := h.memWf
  memInRange := h.memInRange
  viewsNodup := by
    rw [State.addView_views]
    split_ifs with hm
    · exact h.viewsNodup
    · exact List.nodup_append.2 ⟨h.viewsNodup, List.nodup_singleton v,
        fun a ha b hb hab => hm (List.mem_singleton.1 hb ▸ hab ▸ ha)⟩
  viewsOk w hw := by
    obtain hw | rfl := State.mem_addView.1 hw
    · exact h.viewsOk w hw
    · exact hv
  buffersOk b hb := (h.buffersOk b hb).mono fun _ hw => State.mem_addView.2 (.inl hw)
  outTaken := h.outTaken

/-- R42: a valid span has one of the sizes a copy may have. -/
theorem validSpan_size {a n : Nat} (h : ValidSpan a n) : n = 1 ∨ n = 2 ∨ n = 4 :=
  h.imp id (Or.imp And.left And.left)

theorem SessionInv.respondCopy {s : State} (h : SessionInv s) {a : Nat} {d : List Byte}
    (hd : ValidSpan a d.length) : SessionInv (s.respondCopy d) :=
  (h.giveBuffer (b := .copy d) (validSpan_size hd)).respond _

theorem SessionInv.respondView {s : State} (h : SessionInv s) {v : View} (hv : ViewOk s.cfg v)
    (d : List Byte) : SessionInv (s.respondView v d) :=
  ((h.addView hv).giveBuffer (b := .live v) (State.mem_addView.2 (.inr rfl))).respond _

/-- R101: a plain read's flag is set only for a backed span outside the stdout word. -/
theorem plainReadFlag_iff (c : Cfg) (a n : Nat) (bk : Bool) :
    plainReadFlag c a n bk = true ↔ classify a n c.stdoutAddr.toNat = .outsideBoundary ∧ bk = true := by
  unfold plainReadFlag; split_ifs with h <;> simp [h]

/-- R101: a plain read's result is a view only where the span meets `ViewOk`. -/
theorem SessionInv.respondPlainRead {s : State} (h : SessionInv s) {a : Addr} {n : Nat}
    (hspan : ValidSpan a.toNat n) (hin : classify a.toNat n s.cfg.stdinAddr.toNat = .outsideBoundary)
    (hrange : a.toNat + n ≤ s.cfg.memSize.toNat) :
    SessionInv (s.respondRaw ⟨a, n⟩ (s.bytesAt a.toNat n)
      (plainReadFlag s.cfg a.toNat n (bsBacked s.cfg a n))) := by
  unfold State.respondRaw
  split_ifs with hflag
  · obtain ⟨hout, hbacked⟩ := (plainReadFlag_iff ..).1 hflag
    exact h.respondView ⟨hspan, hin, hout, hrange, hbacked⟩ _
  · exact h.respondCopy (a := a.toNat) (by rwa [State.bytesAt_length])

/-! ### The session invariant under each operation -/

theorem execReadByte_keeps_inv {i : Addr} {s t : State} (hs : SessionInv s)
    (h : execReadByte i s = .next t) : SessionInv t := by
  obtain ⟨-, b, f, -, rfl⟩ | ⟨-, -, rfl⟩ | ⟨-, -, -, rfl⟩ | ⟨-, -, -, rfl⟩ := execReadByte_next h
  · exact (hs.afterRead b f).respond _
  · exact hs.respond _
  · exact hs.respond _
  · exact hs.reportFault _

theorem execReadRaw_keeps_inv {a : Addr} {n : Nat} {s t : State} (hs : SessionInv s)
    (h : execReadRaw a n s = .next t) : SessionInv t := by
  obtain ⟨-, rfl⟩ | ⟨hspan, -, ⟨b, -, rfl⟩ | ⟨b, f, -, rfl⟩⟩ | ⟨hspan, -, rfl⟩ |
    ⟨hspan, hin, hrange, rfl⟩ | ⟨-, -, -, rfl⟩ := execReadRaw_next h
  · exact hs.reportFault _
  · exact (hs.afterRead b none).respondCopy (a := a.toNat) (by rwa [List.length_set, zeros_length])
  · exact (hs.afterRead b (some f)).reportFault _
  · exact hs.respondCopy (a := a.toNat) (by rwa [zeros_length])
  · exact hs.respondPlainRead hspan hin hrange
  · exact hs.reportFault _

theorem execWriteByte_keeps_inv {v : Byte} {i : Addr} {s t : State} (hs : SessionInv s)
    (h : execWriteByte v i s = .next t) : SessionInv t := by
  obtain ⟨-, k, f, -, rfl⟩ | ⟨-, -, rfl⟩ | ⟨-, -, hrange, rfl⟩ | ⟨-, -, -, rfl⟩ := execWriteByte_next h
  · exact (hs.afterWrite v k f).respond _
  · exact hs.respond _
  · exact (hs.putByte hrange v).respond _
  · exact hs.reportFault _

theorem execWriteRaw_keeps_inv {d : List Byte} {a : Addr} {s t : State} (hs : SessionInv s)
    (h : execWriteRaw d a s = .next t) : SessionInv t := by
  obtain ⟨-, rfl⟩ | ⟨-, -, -, k, f, -, rfl⟩ | ⟨-, -, -, hrange, rfl⟩ | ⟨-, -, -, -, rfl⟩ :=
    execWriteRaw_next h
  · exact hs.reportFault _
  · exact (hs.afterWrite _ k f).respond _
  · exact (hs.putBytes hrange).respond _
  · exact hs.reportFault _

theorem execSize_keeps_inv {s t : State} (hs : SessionInv s) (h : execSize s = .next t) :
    SessionInv t := by
  obtain rfl := Host.Outcome.next.inj h
  exact hs.respond _

/-- Every operation keeps the session invariant. -/
theorem exec_keeps_inv {i : Instr} {s t : State} (hs : SessionInv s) (h : exec i s = .next t) :
    SessionInv t := by
  cases i with
  | readByte a => exact execReadByte_keeps_inv hs h
  | readRaw a n => exact execReadRaw_keeps_inv hs h
  | writeByte v a => exact execWriteByte_keeps_inv hs h
  | writeRaw d a => exact execWriteRaw_keeps_inv hs h
  | size => exact execSize_keeps_inv hs h

/-- R29: a live view lies inside the backing store, so a caller write through it stays in range. -/
theorem bufferWrite_keeps_inv {r k : Nat} {v : Byte} {s t : State} (hs : SessionInv s)
    (h : bufferWrite r k v s = .next t) : SessionInv t := by
  obtain ⟨w, -, hw, hk, rfl⟩ | ⟨d, hd, -, rfl⟩ := bufferWrite_next h
  · obtain ⟨-, -, -, hrange, -⟩ := hs.viewsOk w hw
    exact hs.putByte (by omega) v
  · exact hs.setCopy hd k v

/-- Settles O44, by the three things a step can do: wait, run an operation, perform a caller write. -/
theorem stepKeepsInv : Obligations.StepKeepsInv := by
  intro s t hs h
  obtain ⟨-, ⟨-, rfl⟩ | ⟨q, rest, i, -, -, hexec⟩ | ⟨r, k, v, rest, -, hwrite⟩⟩ := step_next h
  · exact hs
  · exact exec_keeps_inv (hs.withPort rest) hexec
  · exact bufferWrite_keeps_inv (hs.withPort rest) hwrite

end Sys2Proof.Machine
end

section
/-! The session state of `10_state.md`: construction, what every operation keeps, live views and copies. -/

namespace Sys2Proof.Machine

/-! ### Construction -/

theorem construct_of_ok {c : Cfg} {m : Memory} (hc : CfgOk c) (hwf : Memory.wf m)
    (hr : MemInRange m c.memSize.toNat) (inp : List ReadAnswer) (outp : List WriteAnswer) :
    construct c m inp outp = .next
      { cfg := c, mem := m, inp := inp, out := [], views := [], outp := outp
        calls := [], port := [], responses := [], buffers := [] } := by
  rw [construct, if_neg (not_not_intro hc), if_neg (not_not_intro ⟨hwf, hr⟩)]

theorem construct_of_not_cfgOk {c : Cfg} (hc : ¬ CfgOk c) (m : Memory) (inp : List ReadAnswer)
    (outp : List WriteAnswer) : construct c m inp outp = .refused .illFormedConfig := by
  rw [construct, if_pos hc]

theorem construct_of_bad_memory {c : Cfg} {m : Memory} (hc : CfgOk c)
    (hm : ¬ (Memory.wf m ∧ MemInRange m c.memSize.toNat)) (inp : List ReadAnswer)
    (outp : List WriteAnswer) : construct c m inp outp = .refused .illFormedMemory := by
  rw [construct, if_neg (not_not_intro hc), if_pos hm]

/-- Settles O41: each clause is one way construction answers. -/
theorem constructionLeavesResetValues : Obligations.ConstructionLeavesResetValues :=
  fun _ m inp outp =>
    ⟨fun hc => construct_of_not_cfgOk hc m inp outp,
     fun hc hwf hr => ⟨_, construct_of_ok hc hwf hr inp outp, rfl, rfl, rfl, rfl, rfl, rfl⟩,
     fun hc hm => construct_of_bad_memory hc hm inp outp⟩

/-- A constructed session holds no view, no buffer and no call, so only the configuration and the memory
that `construct` checks are left to hold. -/
theorem construct_sessionInv {c : Cfg} {m : Memory} {inp : List ReadAnswer} {outp : List WriteAnswer}
    {s : State} (h : construct c m inp outp = .next s) : SessionInv s := by
  obtain ⟨hc, hwf, hr, rfl⟩ := construct_next h
  exact
    { cfgOk := hc
      memWf := hwf
      memInRange := hr
      viewsNodup := List.nodup_nil
      viewsOk := fun _ hv => absurd hv List.not_mem_nil
      buffersOk := fun _ hb => absurd hb List.not_mem_nil
      outTaken := rfl }

/-- Settles O42: the reset state is a constructed one. -/
theorem resetStateSatisfiesInv : Obligations.ResetStateSatisfiesInv :=
  construct_sessionInv reset_is_construct

theorem memOfImage_wf (image : List Byte) : Memory.wf (memOfImage image) :=
  memPutAll_wf List.Pairwise.nil 0 image

theorem memOfImage_inRange {image : List Byte} {size : Nat} (h : image.length ≤ size) :
    MemInRange (memOfImage image) size :=
  memPutAll_inRange (fun _ hc => absurd hc List.not_mem_nil) (by omega)

theorem memByte?_memOfImage {image : List Byte} {k : Nat} (h : k < image.length) :
    memByte? (memOfImage image) k = some image[k] := by
  have hk := memByte?_putAll_inside (m := []) (a := 0) h
  rwa [Nat.zero_add] at hk

/-- Settles O43, with the image's bytes read back from `memOfImage`. -/
theorem constructedSessionSatisfiesInv : Obligations.ConstructedSessionSatisfiesInv := by
  refine ⟨fun _ _ _ _ _ => construct_sessionInv, fun c image inp outp hc hlen =>
    ⟨_, construct_of_ok hc (memOfImage_wf image) (memOfImage_inRange hlen) inp outp, fun k v hv => ?_⟩⟩
  obtain ⟨hk, rfl⟩ := List.getElem?_eq_some_iff.1 hv
  rw [State.byteAt, memByte?_memOfImage hk, Option.getD_some]

/-! ### What every operation and every step keeps -/

/-- R22, R29, R30: what no operation takes away: the configuration, and each result buffer the caller
holds, as it is and at its place. -/
structure Keeps (s t : State) : Prop where
  cfg : t.cfg = s.cfg
  buffers : s.buffers <+: t.buffers

theorem Keeps.of_eq {s t : State} (hcfg : t.cfg = s.cfg) (hbufs : t.buffers = s.buffers) : Keeps s t :=
  ⟨hcfg, hbufs ▸ List.prefix_rfl⟩

theorem Keeps.of_append {s t : State} {b : Buffer} (hcfg : t.cfg = s.cfg)
    (hbufs : t.buffers = s.buffers ++ [b]) : Keeps s t :=
  ⟨hcfg, hbufs ▸ List.prefix_append _ _⟩

theorem Keeps.getElem?_buffers {s t : State} (h : Keeps s t) {r : Nat} {b : Buffer}
    (hb : s.buffers[r]? = some b) : t.buffers[r]? = some b := by
  obtain ⟨hr, rfl⟩ := List.getElem?_eq_some_iff.1 hb
  exact List.prefix_iff_getElem?.1 h.buffers r hr

theorem execReadByte_keeps {i : Addr} {s t : State} (h : execReadByte i s = .next t) : Keeps s t := by
  obtain ⟨-, b, f, -, rfl⟩ | ⟨-, -, rfl⟩ | ⟨-, -, -, rfl⟩ | ⟨-, -, -, rfl⟩ := execReadByte_next h <;>
    exact .of_eq rfl rfl

/-- R101: a read that answers data gives the caller one buffer more; a fault gives none. -/
theorem execReadRaw_keeps {a : Addr} {n : Nat} {s t : State} (h : execReadRaw a n s = .next t) :
    Keeps s t := by
  obtain ⟨-, rfl⟩ | ⟨-, -, ⟨b, -, rfl⟩ | ⟨b, f, -, rfl⟩⟩ | ⟨-, -, rfl⟩ | ⟨-, -, -, rfl⟩ |
    ⟨-, -, -, rfl⟩ := execReadRaw_next h
  · exact .of_eq rfl rfl
  · exact .of_append rfl rfl
  · exact .of_eq rfl rfl
  · exact .of_append rfl rfl
  · exact .of_append (State.respondRaw_cfg ..) (State.respondRaw_buffers ..)
  · exact .of_eq rfl rfl

theorem execWriteByte_keeps {v : Byte} {i : Addr} {s t : State} (h : execWriteByte v i s = .next t) :
    Keeps s t := by
  obtain ⟨-, k, f, -, rfl⟩ | ⟨-, -, rfl⟩ | ⟨-, -, -, rfl⟩ | ⟨-, -, -, rfl⟩ := execWriteByte_next h <;>
    exact .of_eq rfl rfl

theorem execWriteRaw_keeps {d : List Byte} {a : Addr} {s t : State} (h : execWriteRaw d a s = .next t) :
    Keeps s t := by
  obtain ⟨-, rfl⟩ | ⟨-, -, -, k, f, -, rfl⟩ | ⟨-, -, -, -, rfl⟩ | ⟨-, -, -, -, rfl⟩ :=
    execWriteRaw_next h <;> exact .of_eq rfl rfl

theorem execSize_keeps {s t : State} (h : execSize s = .next t) : Keeps s t := by
  obtain rfl := Host.Outcome.next.inj h
  exact .of_eq rfl rfl

/-- Every operation keeps the configuration and the caller's result buffers. -/
theorem exec_keeps {i : Instr} {s t : State} (h : exec i s = .next t) : Keeps s t := by
  cases i with
  | readByte a => exact execReadByte_keeps h
  | readRaw a n => exact execReadRaw_keeps h
  | writeByte v a => exact execWriteByte_keeps h
  | writeRaw d a => exact execWriteRaw_keeps h
  | size => exact execSize_keeps h

theorem step_of_request {s : State} {q : Transaction} {rest : List CallerAction} {i : Instr}
    (h : CfgOk s.cfg) (hp : s.port = .request q :: rest) (hq : decodeRequest q = .ok i) :
    step s = exec i { s with port := rest } := by
  rw [step, if_pos h, hp]
  simp only [hq]

/-- R22: no step writes the configuration, a caller write included. -/
theorem step_keeps_cfg {s t : State} (h : step s = .next t) : t.cfg = s.cfg := by
  obtain ⟨-, ⟨-, rfl⟩ | ⟨q, rest, i, -, -, hexec⟩ | ⟨r, k, v, rest, -, hwrite⟩⟩ := step_next h
  · rfl
  · exact (exec_keeps hexec).cfg
  · obtain ⟨w, -, -, -, rfl⟩ | ⟨d, -, -, rfl⟩ := bufferWrite_next hwrite <;> rfl

/-- Settles O47: `SIZE` answers from the configuration, which every step of the run keeps. -/
theorem configurationNeverChanges : Obligations.ConfigurationNeverChanges := by
  intro k s t h
  have hcfg : t.cfg = s.cfg :=
    run_keeps (P := fun u => u.cfg = s.cfg) (fun _ _ hu hstep => (step_keeps_cfg hstep).trans hu) rfl h
  refine ⟨hcfg, ?_⟩
  rw [← hcfg]
  rfl

/-! ### Plain writes -/

/-- R44: a valid span never crosses the edge of an aligned word. -/
theorem classify_ne_crosses_of_aligned {s n b : Nat} (hspan : ValidSpan s n) (hb : b % 4 = 0) :
    classify s n b ≠ .crossesBoundary := by
  rw [ne_eq, classify_crosses_iff]
  obtain rfl | ⟨rfl, hs⟩ | ⟨rfl, hs⟩ := hspan <;> omega

theorem execWriteByte_of_plain {v : Byte} {i : Addr} {s : State}
    (hword : ¬ InWord s.cfg.stdoutAddr.toNat i.toNat) (hr : i.toNat < s.cfg.memSize.toNat) :
    execWriteByte v i s = .next ((s.putByte i.toNat v).respond .done) := by
  obtain ⟨hfirst, htail⟩ := not_or.1 fun hin => hword ((inWord_iff ..).2 hin)
  rw [execWriteByte, if_neg hfirst, if_neg htail, (bsWriteOneByte_ok_iff ..).2 ⟨hr, rfl⟩]

theorem execWriteRaw_of_plain {d : List Byte} {a : Addr} {s : State} (hspan : ValidSpan a.toNat d.length)
    (hcross : classify a.toNat d.length s.cfg.stdoutAddr.toNat ≠ .crossesBoundary)
    (hend : a.toNat + d.length - 1 ≠ s.cfg.stdoutAddr.toNat + 3)
    (hr : a.toNat + d.length ≤ s.cfg.memSize.toNat) :
    execWriteRaw d a s = .next ((s.putBytes a.toNat d).respond .done) := by
  rw [execWriteRaw, if_neg (not_not_intro hspan), if_neg hcross, if_neg hend,
    (bsWriteRaw_ok_iff ..).2 ⟨hr, rfl⟩]

theorem State.byteAt_respond (s : State) (r : Response) (a : Nat) : (s.respond r).byteAt a = s.byteAt a :=
  State.byteAt_of_mem (s.respond_mem r) a

/-- R46: element `k` of a buffer written at `a` is the byte at `a + k`. -/
theorem State.byteAt_putBytes_of_getElem? (s : State) (a : Nat) {d : List Byte} {k : Nat} {v : Byte}
    (h : d[k]? = some v) : (s.putBytes a d).byteAt (a + k) = v := by
  obtain ⟨hk, rfl⟩ := List.getElem?_eq_some_iff.1 h
  exact State.byteAt_putBytes_inside hk

/-- Settles O18: the write goes to the backing store, and the store's laws give the bytes. -/
theorem plainWritePlacesBytes : Obligations.PlainWritePlacesBytes := by
  rintro s d a ⟨⟨-, hout⟩, -⟩ hspan hend hr
  refine ⟨_, execWriteRaw_of_plain hspan (classify_ne_crosses_of_aligned hspan hout) hend hr, rfl,
    fun k v hv => ?_, fun x hx => ?_⟩
  · rw [State.byteAt_respond, State.byteAt_putBytes_of_getElem? s a.toNat hv]
  · rw [State.byteAt_respond, State.byteAt_putBytes_outside hx]

/-- A `WRITE_RAW` that answers `OK` has put each element into the backing store, but for a span that emits,
all of whose bytes lie in the stdout word because it does not cross the word's edge. -/
theorem execWriteRaw_done_byteAt {d : List Byte} {a : Addr} {j : Nat} {v : Byte} {s t : State}
    (h : execWriteRaw d a s = .next t) (hdone : t.responses = s.responses ++ [.done])
    (hj : d[j]? = some v) (hword : ¬ InWord s.cfg.stdoutAddr.toNat (a.toNat + j)) :
    t.byteAt (a.toNat + j) = v := by
  obtain ⟨-, rfl⟩ | ⟨-, hcross, hend, -⟩ | ⟨-, -, -, -, rfl⟩ | ⟨-, -, -, -, rfl⟩ := execWriteRaw_next h
  · simp at hdone
  · have hlen : j < d.length := (List.getElem?_eq_some_iff.1 hj).1
    rw [ne_eq, classify_crosses_iff] at hcross
    simp only [InWord] at hword
    omega
  · rw [State.byteAt_respond, State.byteAt_putBytes_of_getElem? s a.toNat hj]
  · simp at hdone

/-! ### Live views -/

theorem State.bufferElement_live {s : State} {r k : Nat} {w : View} (hb : s.buffers[r]? = some (.live w))
    (hk : k < w.len) : s.bufferElement r k = some (s.byteAt (w.start.toNat + k)) := by
  simp [State.bufferElement, hb, hk]

theorem State.bufferElement_copy {s : State} {r : Nat} {d : List Byte}
    (hb : s.buffers[r]? = some (.copy d)) (k : Nat) : s.bufferElement r k = d[k]? := by
  simp [State.bufferElement, hb]

theorem bufferWrite_live {s : State} {r k : Nat} {w : View} (hb : s.buffers[r]? = some (.live w))
    (hw : w ∈ s.views) (hk : k < w.len) (v : Byte) :
    bufferWrite r k v s = .next (s.putByte (w.start.toNat + k) v) := by
  unfold bufferWrite
  rw [hb]
  exact if_pos ⟨hw, hk⟩

/-- A span outside a device word holds no byte of it. -/
theorem not_inWord_of_outside {s n b k : Nat} (h : classify s n b = .outsideBoundary) (hk : k < n) :
    ¬ InWord b (s + k) := by
  rw [classify_outside_iff] at h
  simp only [InWord]
  omega

/-- In a session that meets the invariant the caller's live buffers are views. -/
theorem SessionInv.mem_views {s : State} (h : SessionInv s) {r : Nat} {w : View}
    (hb : s.buffers[r]? = some (.live w)) : w ∈ s.views :=
  h.buffersOk _ (List.mem_of_getElem? hb)

/-- R29, R101: every element of a live view is plain memory. -/
theorem SessionInv.live_element_plain {s : State} (h : SessionInv s) {r k : Nat} {w : View}
    (hb : s.buffers[r]? = some (.live w)) (hk : k < w.len) :
    ¬ InWord s.cfg.stdinAddr.toNat (w.start.toNat + k) ∧
    ¬ InWord s.cfg.stdoutAddr.toNat (w.start.toNat + k) ∧
    w.start.toNat + k < s.cfg.memSize.toNat := by
  obtain ⟨-, hin, hout, hr, -⟩ := h.viewsOk w (h.mem_views hb)
  exact ⟨not_inWord_of_outside hin hk, not_inWord_of_outside hout hk, by omega⟩

/-- Settles O37: the view's element is plain memory, and the write puts that one byte. -/
theorem viewWriteReachesPlainMemory : Obligations.ViewWriteReachesPlainMemory := by
  intro s r k w v hs hb hk
  obtain ⟨hin, hout, hr⟩ := hs.live_element_plain hb hk
  exact ⟨hin, hout, hr, _, bufferWrite_live hb (hs.mem_views hb) hk v, State.byteAt_putByte s _ v⟩

/-- R29: after any operation an element of a live view is the backing store's byte at that time. -/
theorem exec_bufferElement_live {i : Instr} {s t : State} {r k : Nat} {w : View}
    (hb : s.buffers[r]? = some (.live w)) (hk : k < w.len) (h : exec i s = .next t) :
    t.bufferElement r k = some (t.byteAt (w.start.toNat + k)) :=
  State.bufferElement_live ((exec_keeps h).getElem?_buffers hb) hk

/-- Settles O38: a view shows the backing store, and either write puts its byte there because the view
lies outside the stdout word. -/
theorem liveViewShowsLaterWrites : Obligations.LiveViewShowsLaterWrites := by
  intro s r k w hs hb hk
  obtain ⟨-, hout, hr⟩ := hs.live_element_plain hb hk
  refine ⟨fun v a ha => ?_, fun i t => exec_bufferElement_live hb hk, fun d a j v t h hdone hj ha => ?_⟩
  · have h : exec (.writeByte v a) s = .next ((s.putByte a.toNat v).respond .done) :=
      execWriteByte_of_plain (ha ▸ hout) (ha ▸ hr)
    refine ⟨_, h, ?_⟩
    rw [exec_bufferElement_live hb hk h, State.byteAt_respond, State.byteAt_putByte, if_pos ha.symm]
  · rw [exec_bufferElement_live hb hk h, ← ha, execWriteRaw_done_byteAt h hdone hj (ha ▸ hout)]

/-- Settles O39: a copy stays at its place among the caller's buffers, and its elements are its own. -/
theorem copiesNeverChangeUnderOperations : Obligations.CopiesNeverChangeUnderOperations :=
  fun _ _ _ _ _ hb h => State.bufferElement_copy ((exec_keeps h).getElem?_buffers hb)

/-! ### Sessions that differ in the bytes of copies: each state update keeps them so -/

theorem SameShape.refl (b : Buffer) : SameShape b b := by
  cases b <;> rfl

theorem forall₂_set {α β : Type*} {R : α → β → Prop} {l : List α} {m : List β} (h : List.Forall₂ R l m)
    {a : α} {b : β} (hab : R a b) (i : Nat) : List.Forall₂ R (l.set i a) (m.set i b) := by
  induction h generalizing i with
  | nil => exact .nil
  | cons hxy hrest ih =>
    cases i with
    | zero => exact .cons hab hrest
    | succ i => exact .cons hxy (ih i)

theorem forall₂_getElem? {α β : Type*} {R : α → β → Prop} {l : List α} {m : List β}
    (h : List.Forall₂ R l m) (i : Nat) : Option.Rel R l[i]? m[i]? := by
  induction h generalizing i with
  | nil => exact .none
  | cons hxy hrest ih =>
    cases i with
    | zero => exact .some hxy
    | succ i => exact ih i

section
variable {s t : State}

theorem SameButCopies.cfg_eq (h : SameButCopies s t) : t.cfg = s.cfg := by
  obtain ⟨bs, -, rfl⟩ := h; rfl

theorem SameButCopies.views_eq (h : SameButCopies s t) : t.views = s.views := by
  obtain ⟨bs, -, rfl⟩ := h; rfl

theorem SameButCopies.port_eq (h : SameButCopies s t) : t.port = s.port := by
  obtain ⟨bs, -, rfl⟩ := h; rfl

theorem SameButCopies.calls_eq (h : SameButCopies s t) : t.calls = s.calls := by
  obtain ⟨bs, -, rfl⟩ := h; rfl

theorem SameButCopies.nextRead_eq (h : SameButCopies s t) : t.nextRead = s.nextRead := by
  obtain ⟨bs, -, rfl⟩ := h; rfl

theorem SameButCopies.nextWrite_eq (h : SameButCopies s t) (v : Byte) : t.nextWrite v = s.nextWrite v := by
  obtain ⟨bs, -, rfl⟩ := h; rfl

theorem SameButCopies.bsReadOneByte_eq (h : SameButCopies s t) (a : Addr) :
    bsReadOneByte t a = bsReadOneByte s a := by
  obtain ⟨bs, -, rfl⟩ := h; rfl

theorem SameButCopies.bsReadRaw_eq (h : SameButCopies s t) (a : Addr) (n : Nat) :
    bsReadRaw t a n = bsReadRaw s a n := by
  obtain ⟨bs, -, rfl⟩ := h; rfl

theorem SameButCopies.bsSize_eq (h : SameButCopies s t) : bsSize t = bsSize s := by
  obtain ⟨bs, -, rfl⟩ := h; rfl

theorem SameButCopies.withPort (h : SameButCopies s t) (rest : List CallerAction) :
    SameButCopies { s with port := rest } { t with port := rest } := by
  obtain ⟨bs, hbs, rfl⟩ := h; exact ⟨bs, hbs, rfl⟩

theorem SameButCopies.respond (h : SameButCopies s t) (r : Response) :
    SameButCopies (s.respond r) (t.respond r) := by
  obtain ⟨bs, hbs, rfl⟩ := h; exact ⟨bs, hbs, rfl⟩

theorem SameButCopies.reportFault (h : SameButCopies s t) (f : BlockFault) :
    SameButCopies (s.reportFault f) (t.reportFault f) := h.respond (.fault f)

theorem SameButCopies.putByte (h : SameButCopies s t) (a : Nat) (v : Byte) :
    SameButCopies (s.putByte a v) (t.putByte a v) := by
  obtain ⟨bs, hbs, rfl⟩ := h; exact ⟨bs, hbs, rfl⟩

theorem SameButCopies.putBytes (h : SameButCopies s t) (a : Nat) (d : List Byte) :
    SameButCopies (s.putBytes a d) (t.putBytes a d) := by
  obtain ⟨bs, hbs, rfl⟩ := h; exact ⟨bs, hbs, rfl⟩

theorem SameButCopies.afterRead (h : SameButCopies s t) (b : Option Byte) (f : Option FaultValue) :
    SameButCopies (s.afterRead b f) (t.afterRead b f) := by
  obtain ⟨bs, hbs, rfl⟩ := h; exact ⟨bs, hbs, rfl⟩

theorem SameButCopies.afterWrite (h : SameButCopies s t) (v : Byte) (taken : Bool)
    (f : Option FaultValue) : SameButCopies (s.afterWrite v taken f) (t.afterWrite v taken f) := by
  obtain ⟨bs, hbs, rfl⟩ := h; exact ⟨bs, hbs, rfl⟩

theorem SameButCopies.addView (h : SameButCopies s t) (v : View) :
    SameButCopies (s.addView v) (t.addView v) := by
  obtain ⟨bs, hbs, rfl⟩ := h; exact ⟨bs, hbs, rfl⟩

theorem SameButCopies.giveBuffer (h : SameButCopies s t) (b : Buffer) :
    SameButCopies (s.giveBuffer b) (t.giveBuffer b) := by
  obtain ⟨bs, hbs, rfl⟩ := h
  exact ⟨bs ++ [b], List.rel_append hbs (.cons (SameShape.refl b) .nil), rfl⟩

theorem SameButCopies.respondCopy (h : SameButCopies s t) (d : List Byte) :
    SameButCopies (s.respondCopy d) (t.respondCopy d) := (h.giveBuffer _).respond _

theorem SameButCopies.respondRaw (h : SameButCopies s t) (v : View) (d : List Byte) (flag : Bool) :
    SameButCopies (s.respondRaw v d flag) (t.respondRaw v d flag) := by
  cases flag with
  | true => exact ((h.addView v).giveBuffer _).respond _
  | false => exact h.respondCopy d

/-! ### Sessions that differ in the bytes of copies: the shared operations answer alike -/

theorem SameButCopies.streamIn_cases (h : SameButCopies s t) :
    (streamIn s = .stuck ∧ streamIn t = .stuck) ∨
    (∃ f s' t', streamIn s = .fault f s' ∧ streamIn t = .fault f t' ∧ SameButCopies s' t') ∨
    (∃ v s' t', streamIn s = .ok v s' ∧ streamIn t = .ok v t' ∧ SameButCopies s' t') := by
  unfold streamIn
  rw [h.nextRead_eq, h.calls_eq]
  rcases s.nextRead with ⟨b, _ | f⟩ | _
  · cases b with
    | none => exact .inr (.inr ⟨_, _, _, rfl, rfl, h.afterRead none none⟩)
    | some v => exact .inr (.inr ⟨_, _, _, rfl, rfl, h.afterRead (some v) none⟩)
  · exact .inr (.inl ⟨_, _, _, rfl, rfl, h.afterRead b (some f)⟩)
  · exact .inl ⟨rfl, rfl⟩

theorem SameButCopies.streamOut_cases (h : SameButCopies s t) (v : Byte) :
    (streamOut v s = .stuck ∧ streamOut v t = .stuck) ∨
    (∃ f s' t', streamOut v s = .fault f s' ∧ streamOut v t = .fault f t' ∧ SameButCopies s' t') ∨
    (∃ s' t', streamOut v s = .ok () s' ∧ streamOut v t = .ok () t' ∧ SameButCopies s' t') := by
  unfold streamOut
  rw [h.nextWrite_eq]
  rcases s.nextWrite v with ⟨k, _ | f⟩ | _
  · exact .inr (.inr ⟨_, _, rfl, rfl, h.afterWrite v k none⟩)
  · exact .inr (.inl ⟨_, _, _, rfl, rfl, h.afterWrite v k (some f)⟩)
  · exact .inl ⟨rfl, rfl⟩

theorem SameButCopies.bsWriteOneByte_cases (h : SameButCopies s t) (v : Byte) (a : Addr) :
    (∃ f, bsWriteOneByte s v a = .error f ∧ bsWriteOneByte t v a = .error f) ∨
    (∃ s' t', bsWriteOneByte s v a = .ok s' ∧ bsWriteOneByte t v a = .ok t' ∧ SameButCopies s' t') := by
  unfold bsWriteOneByte
  rw [h.cfg_eq]
  split_ifs
  · exact .inr ⟨_, _, rfl, rfl, h.putByte a.toNat v⟩
  · exact .inl ⟨_, rfl, rfl⟩

theorem SameButCopies.bsWriteRaw_cases (h : SameButCopies s t) (d : List Byte) (a : Addr) :
    (∃ f, bsWriteRaw s d a = .error f ∧ bsWriteRaw t d a = .error f) ∨
    (∃ s' t', bsWriteRaw s d a = .ok s' ∧ bsWriteRaw t d a = .ok t' ∧ SameButCopies s' t') := by
  unfold bsWriteRaw
  rw [h.cfg_eq]
  split_ifs
  · exact .inr ⟨_, _, rfl, rfl, h.putBytes a.toNat d⟩
  · exact .inl ⟨_, rfl, rfl⟩

/-- What the two sessions hold at one place among the caller's buffers. -/
theorem SameButCopies.buffer_cases (h : SameButCopies s t) (r : Nat) :
    (s.buffers[r]? = none ∧ t.buffers[r]? = none) ∨
    (∃ w, s.buffers[r]? = some (.live w) ∧ t.buffers[r]? = some (.live w)) ∨
    (∃ d e, s.buffers[r]? = some (.copy d) ∧ t.buffers[r]? = some (.copy e) ∧ d.length = e.length) := by
  obtain ⟨bs, hbs, rfl⟩ := h
  have hr := forall₂_getElem? hbs r
  show (_ ∧ bs[r]? = _) ∨ (∃ w, _ ∧ bs[r]? = _) ∨ (∃ d e, _ ∧ bs[r]? = _ ∧ _)
  generalize s.buffers[r]? = o, bs[r]? = p at hr
  cases hr with
  | none => exact .inl ⟨rfl, rfl⟩
  | @some b c hbc =>
    match b, c, hbc with
    | .live w, .live _, rfl => exact .inr (.inl ⟨w, rfl, rfl⟩)
    | .copy d, .copy e, hlen => exact .inr (.inr ⟨d, e, rfl, rfl, hlen⟩)

/-! ### Sessions that differ in the bytes of copies: operations, steps and runs end alike -/

theorem SameButCopies.endAlike_execReadByte (h : SameButCopies s t) (i : Addr) :
    EndAlike (execReadByte i s) (execReadByte i t) := by
  unfold execReadByte
  rw [h.cfg_eq, h.bsReadOneByte_eq]
  split_ifs
  · obtain ⟨hs, ht⟩ | ⟨f, s', t', hs, ht, h'⟩ | ⟨v, s', t', hs, ht, h'⟩ := h.streamIn_cases <;>
      rw [hs, ht]
    · exact rfl
    · exact h'.reportFault _
    · exact h'.respond _
  · exact h.respond _
  · rcases bsReadOneByte s i with f | v
    · exact h.reportFault _
    · exact h.respond _

theorem SameButCopies.endAlike_execReadRaw (h : SameButCopies s t) (a : Addr) (n : Nat) :
    EndAlike (execReadRaw a n s) (execReadRaw a n t) := by
  unfold execReadRaw
  rw [h.cfg_eq, h.bsReadRaw_eq]
  split_ifs
  swap
  · exact h.reportFault _
  rcases classify a.toNat n s.cfg.stdinAddr.toNat with _ | _ | _ | _
  · exact h.reportFault _
  · obtain ⟨hs, ht⟩ | ⟨f, s', t', hs, ht, h'⟩ | ⟨v, s', t', hs, ht, h'⟩ := h.streamIn_cases <;>
      rw [hs, ht]
    · exact rfl
    · exact h'.reportFault _
    · exact h'.respondCopy _
  · exact h.respondCopy _
  · rcases bsReadRaw s a n with f | ⟨d, bk⟩
    · exact h.reportFault _
    · exact h.respondRaw _ _ _

theorem SameButCopies.endAlike_execWriteByte (h : SameButCopies s t) (v : Byte) (i : Addr) :
    EndAlike (execWriteByte v i s) (execWriteByte v i t) := by
  unfold execWriteByte
  rw [h.cfg_eq]
  split_ifs
  · obtain ⟨hs, ht⟩ | ⟨f, s', t', hs, ht, h'⟩ | ⟨s', t', hs, ht, h'⟩ := h.streamOut_cases v <;>
      rw [hs, ht]
    · exact rfl
    · exact h'.reportFault _
    · exact h'.respond _
  · exact h.respond _
  · obtain ⟨f, hs, ht⟩ | ⟨s', t', hs, ht, h'⟩ := h.bsWriteOneByte_cases v i <;> rw [hs, ht]
    · exact h.reportFault _
    · exact h'.respond _

theorem SameButCopies.endAlike_execWriteRaw (h : SameButCopies s t) (d : List Byte) (a : Addr) :
    EndAlike (execWriteRaw d a s) (execWriteRaw d a t) := by
  unfold execWriteRaw
  rw [h.cfg_eq]
  by_cases hspan : ValidSpan a.toNat d.length
  swap
  · rw [if_pos hspan, if_pos hspan]
    exact h.reportFault _
  rw [if_neg (not_not_intro hspan), if_neg (not_not_intro hspan)]
  split_ifs
  · exact h.reportFault _
  · obtain ⟨hs, ht⟩ | ⟨f, s', t', hs, ht, h'⟩ | ⟨s', t', hs, ht, h'⟩ := h.streamOut_cases (lastByte d) <;>
      rw [hs, ht]
    · exact rfl
    · exact h'.reportFault _
    · exact h'.respond _
  · obtain ⟨f, hs, ht⟩ | ⟨s', t', hs, ht, h'⟩ := h.bsWriteRaw_cases d a <;> rw [hs, ht]
    · exact h.reportFault _
    · exact h'.respond _

theorem SameButCopies.endAlike_execSize (h : SameButCopies s t) : EndAlike (execSize s) (execSize t) := by
  unfold execSize
  rw [h.bsSize_eq]
  exact h.respond _

/-- R103: no operation reads the bytes of a copy. -/
theorem SameButCopies.endAlike_exec (h : SameButCopies s t) (i : Instr) : EndAlike (exec i s) (exec i t) := by
  cases i with
  | readByte a => exact h.endAlike_execReadByte a
  | readRaw a n => exact h.endAlike_execReadRaw a n
  | writeByte v a => exact h.endAlike_execWriteByte v a
  | writeRaw d a => exact h.endAlike_execWriteRaw d a
  | size => exact h.endAlike_execSize

/-- R30: whether a caller write names an element of a copy depends on the copy's length alone. -/
theorem SameButCopies.endAlike_bufferWrite (h : SameButCopies s t) (r k : Nat) (v : Byte) :
    EndAlike (bufferWrite r k v s) (bufferWrite r k v t) := by
  unfold bufferWrite
  obtain ⟨hs, ht⟩ | ⟨w, hs, ht⟩ | ⟨d, e, hs, ht, hlen⟩ := h.buffer_cases r <;> rw [hs, ht]
  · exact rfl
  · simp only [h.views_eq]
    split_ifs
    · exact h.putByte _ v
    · exact rfl
  · simp only [hlen]
    split_ifs
    · obtain ⟨bs, hbs, rfl⟩ := h
      exact ⟨_, forall₂_set hbs (a := .copy (d.set k v)) (b := .copy (e.set k v))
        (by simpa only [SameShape, List.length_set]) r, rfl⟩
    · exact rfl

theorem SameButCopies.endAlike_step (h : SameButCopies s t) : EndAlike (step s) (step t) := by
  by_cases hc : CfgOk s.cfg
  swap
  · rw [step_of_not_cfgOk hc, step_of_not_cfgOk (h.cfg_eq ▸ hc)]
    exact rfl
  have hc' : CfgOk t.cfg := h.cfg_eq ▸ hc
  rcases hp : s.port with _ | ⟨q | ⟨r, k, v⟩ | ⟨p, q⟩, rest⟩ <;> have hp' := h.port_eq.trans hp
  · rw [step_of_idle hc hp, step_of_idle hc' hp']
    exact h
  · rcases hq : decodeRequest q with e | i
    · rw [step_of_refused_request hc hp hq, step_of_refused_request hc' hp' hq]
      exact rfl
    · rw [step_of_request hc hp hq, step_of_request hc' hp' hq]
      exact (h.withPort rest).endAlike_exec i
  · rw [step_of_bufferWrite hc hp, step_of_bufferWrite hc' hp']
    exact (h.withPort rest).endAlike_bufferWrite r k v
  · rw [step_of_concurrent hc hp, step_of_concurrent hc' hp']
    exact rfl

/-- A stop ends the run at once; a step that goes on leaves two sessions that still differ only in copies. -/
theorem SameButCopies.endAlike_run (h : SameButCopies s t) (n : Nat) :
    EndAlike (Host.Core.run Sys2Proof.core n s) (Host.Core.run Sys2Proof.core n t) := by
  induction n generalizing s t with
  | zero => exact h
  | succ n ih =>
    rw [run_succ, run_succ]
    have hstep := h.endAlike_step
    match step s, step t, hstep with
    | .next _, .next _, h' => exact ih h'
    | .fault _, .fault _, h' => exact h'
    | .refused _, .refused _, h' => exact h'

end

/-- R30: a caller write into a copy changes that copy's bytes, not its length, and nothing else. -/
theorem bufferWrite_copy_sameButCopies {s t : State} {r k : Nat} {v : Byte} {d : List Byte}
    (hb : s.buffers[r]? = some (.copy d)) (h : bufferWrite r k v s = .next t) : SameButCopies s t := by
  obtain ⟨w, hw, -⟩ | ⟨e, he, -, rfl⟩ := bufferWrite_next h
  · simp [hb] at hw
  · refine ⟨_, ?_, rfl⟩
    have hset := forall₂_set (List.forall₂_same.2 fun b _ => SameShape.refl b : s.buffers.Forall₂ SameShape _)
      (a := .copy e) (b := .copy (e.set k v)) (by simp only [SameShape, List.length_set]) r
    obtain ⟨hr, hget⟩ := List.getElem?_eq_some_iff.1 he
    rwa [← hget, List.set_getElem_self] at hset

/-- Settles O40: the write leaves a session that differs in a copy's bytes, and such sessions run alike. -/
theorem copyWritesNeverReachTheBlock : Obligations.CopyWritesNeverReachTheBlock := by
  intro s t r k v d hb h
  have hsame := bufferWrite_copy_sameButCopies hb h
  exact ⟨hsame, hsame.endAlike_run⟩

end Sys2Proof.Machine
end

section
/-! The memory contract of `20_memory.md`: spans and blocks, completion, stream calls, the order of service. -/

namespace Sys2Proof.Machine

/-! ### Spans and aligned blocks -/

/-- R44: the block is the one the span starts in. -/
theorem validSpan_in_block {s n x : Nat} (h : ValidSpan s n) (hlo : s ≤ x) (hhi : x < s + n) :
    4 * (s / 4) ≤ x ∧ x ≤ 4 * (s / 4) + 3 := by
  obtain rfl | ⟨rfl, hs⟩ | ⟨rfl, hs⟩ := h <;> omega

/-- R44: an aligned word is a block, so it is the span's block or another one. -/
theorem validSpan_inside_or_misses {s n b : Nat} (h : ValidSpan s n) (hb : b % 4 = 0) :
    (∀ x, s ≤ x → x < s + n → InWord b x) ∨ SpanMisses s n b := by
  by_cases hblock : b = 4 * (s / 4)
  · exact .inl fun x hlo hhi => hblock ▸ validSpan_in_block h hlo hhi
  · refine .inr fun x hlo hhi hin => hblock ?_
    have hx := validSpan_in_block h hlo hhi
    simp only [InWord] at hin
    omega

/-- R9: both device words are aligned. -/
theorem CfgOk.aligned {c : Cfg} (h : CfgOk c) {b : Nat}
    (hb : b = c.stdinAddr.toNat ∨ b = c.stdoutAddr.toNat) : b % 4 = 0 := by
  obtain ⟨⟨hin, hout⟩, -⟩ := h
  obtain rfl | rfl := hb
  · exact hin
  · exact hout

/-- Settles O12, by the block the span starts in. -/
theorem validSpanLiesInOneBlock : Obligations.ValidSpanLiesInOneBlock := fun s _ hspan =>
  ⟨⟨s / 4, fun _ => validSpan_in_block hspan⟩, fun _ hc _ hb =>
    ⟨validSpan_inside_or_misses hspan (hc.aligned hb),
     classify_ne_crosses_of_aligned hspan (hc.aligned hb)⟩⟩

/-! ### A step on a request -/

theorem decodeRequest_of_ok {q : Transaction} {i : Instr} (h : decode q = .ok i) :
    decodeRequest q = .ok i := by
  rw [decodeRequest, h]

/-- Settles O45. -/
theorem stepRunsTheDecodedOperation : Obligations.StepRunsTheDecodedOperation :=
  fun _ _ _ _ hc hp hq _ => step_of_request hc hp (decodeRequest_of_ok hq)

/-! ### Completion -/

/-- R93: a stream read that is answered ends with a byte or with the stream's fault. -/
theorem streamIn_returns {s : State} (h : s.nextRead ≠ .never) :
    (∃ v t, streamIn s = .ok v t) ∨ ∃ f t, streamIn s = .fault f t := by
  obtain ⟨hn, -⟩ | ⟨b, f, -, e⟩ | ⟨b, -, e⟩ := streamIn_cases s
  · exact absurd hn h
  · exact .inr ⟨_, _, e⟩
  · exact .inl ⟨_, _, e⟩

/-- R93: a stream write that is answered ends with success or with the stream's fault. -/
theorem streamOut_returns {v : Byte} {s : State} (h : s.nextWrite v ≠ .never) :
    (∃ t, streamOut v s = .ok () t) ∨ ∃ f t, streamOut v s = .fault f t := by
  obtain ⟨hn, -⟩ | ⟨k, f, -, e⟩ | ⟨k, -, e⟩ := streamOut_cases v s
  · exact absurd hn h
  · exact .inr ⟨_, _, e⟩
  · exact .inl ⟨_, e⟩

theorem execReadByte_completes {s : State} (hread : s.nextRead ≠ .never) (i : Addr) :
    ∃ t, execReadByte i s = .next t := by
  unfold execReadByte
  split_ifs
  · obtain ⟨v, t, e⟩ | ⟨f, t, e⟩ := streamIn_returns hread <;> rw [e] <;> exact ⟨_, rfl⟩
  · exact ⟨_, rfl⟩
  · cases bsReadOneByte s i <;> exact ⟨_, rfl⟩

theorem execReadRaw_completes {s : State} (hread : s.nextRead ≠ .never) (a : Addr) (n : Nat) :
    ∃ t, execReadRaw a n s = .next t := by
  unfold execReadRaw
  split_ifs
  · cases classify a.toNat n s.cfg.stdinAddr.toNat with
    | crossesBoundary => exact ⟨_, rfl⟩
    | firstIsBoundary =>
      obtain ⟨v, t, e⟩ | ⟨f, t, e⟩ := streamIn_returns hread <;> rw [e] <;> exact ⟨_, rfl⟩
    | laterBytesInBoundary => exact ⟨_, rfl⟩
    | outsideBoundary => cases bsReadRaw s a n <;> exact ⟨_, rfl⟩
  · exact ⟨_, rfl⟩

theorem execWriteByte_completes {s : State} {v : Byte} (hwrite : s.nextWrite v ≠ .never) (i : Addr) :
    ∃ t, execWriteByte v i s = .next t := by
  unfold execWriteByte
  split_ifs
  · obtain ⟨t, e⟩ | ⟨f, t, e⟩ := streamOut_returns hwrite <;> rw [e] <;> exact ⟨_, rfl⟩
  · exact ⟨_, rfl⟩
  · cases bsWriteOneByte s v i <;> exact ⟨_, rfl⟩

theorem execWriteRaw_completes {s : State} {d : List Byte} (hwrite : s.nextWrite (lastByte d) ≠ .never)
    (a : Addr) : ∃ t, execWriteRaw d a s = .next t := by
  unfold execWriteRaw
  split_ifs
  · exact ⟨_, rfl⟩
  · obtain ⟨t, e⟩ | ⟨f, t, e⟩ := streamOut_returns hwrite <;> rw [e] <;> exact ⟨_, rfl⟩
  · cases bsWriteRaw s d a <;> exact ⟨_, rfl⟩
  · exact ⟨_, rfl⟩

/-- Settles O22: a faulting operation completes too, with its fault as the response, so only the two
streams can withhold a next state. -/
theorem everyOperationCompletes : Obligations.EveryOperationCompletes := by
  intro i s hread hwrite
  cases i with
  | readByte a => exact execReadByte_completes hread a
  | readRaw a n => exact execReadRaw_completes hread a n
  | writeByte v a => exact execWriteByte_completes (hwrite v) a
  | writeRaw d a => exact execWriteRaw_completes (hwrite (lastByte d)) a
  | size => exact ⟨_, rfl⟩

/-! ### Stream calls -/

/-- R47, R92: what one call on the input stream may change: nothing of the output stream or the backing
store. -/
structure ReadsOnce (s t : State) : Prop where
  calls : ∃ b f, t.calls = s.calls ++ [.read b f]
  inp : t.inp = s.inp.tail
  outp : t.outp = s.outp
  out : t.out = s.out
  mem : t.mem = s.mem

/-- R47, R91, R92: what one call that gives `v` to the output stream may change: nothing of the input
stream or the backing store. -/
structure WritesOnce (v : Byte) (s t : State) : Prop where
  calls : ∃ k f, t.calls = s.calls ++ [.write v k f]
  outp : t.outp = s.outp.tail
  out : t.out = s.out ∨ t.out = s.out ++ [v]
  inp : t.inp = s.inp
  mem : t.mem = s.mem

/-- R155: both streams are left alone. -/
structure NoStreamCall (s t : State) : Prop where
  calls : t.calls = s.calls
  inp : t.inp = s.inp
  outp : t.outp = s.outp
  out : t.out = s.out

/-- R47, R92, R155: the three ways an operation from `s` to `t` can use the streams, each with the device
case that it belongs to. -/
inductive StreamUse (i : Instr) (s t : State) : Prop where
  | read (hi : ReadsStream s.cfg i) (h : ReadsOnce s t)
  | write (v : Byte) (hi : WritesStream s.cfg i v) (h : WritesOnce v s t)
  | none (hr : ¬ ReadsStream s.cfg i) (hw : ∀ v, ¬ WritesStream s.cfg i v) (h : NoStreamCall s t)

theorem readsOnce_afterRead (s : State) (b : Option Byte) (f : Option FaultValue) :
    ReadsOnce s (s.afterRead b f) := ⟨⟨b, f, rfl⟩, rfl, rfl, rfl, rfl⟩

theorem writesOnce_afterWrite (v : Byte) (s : State) (k : Bool) (f : Option FaultValue) :
    WritesOnce v s (s.afterWrite v k f) :=
  ⟨⟨k, f, rfl⟩, rfl, by cases k <;> simp, rfl, rfl⟩

/-- A span that starts at a device word's first byte, of a size a span can have, is never tagged crossing. -/
theorem readsStream_readRaw_iff (c : Cfg) (a : Addr) (n : Nat) : ReadsStream c (.readRaw a n) ↔
    ValidSpan a.toNat n ∧ classify a.toNat n c.stdinAddr.toNat = .firstIsBoundary := by
  rw [ReadsStream, classify_first_iff, BitVec.toNat_inj]
  refine and_congr_right fun hspan => (and_iff_left ?_).symm
  obtain rfl | rfl | rfl := validSpan_size hspan <;> omega

theorem not_writesStream_of_readsStream {c : Cfg} {i : Instr} (h : ReadsStream c i) (v : Byte) :
    ¬ WritesStream c i v := by
  cases i with
  | readByte a => exact id
  | readRaw a n => exact id
  | writeByte w a => exact h.elim
  | writeRaw d a => exact h.elim
  | size => exact id

/-- R92: an operation gives the output stream one byte. -/
theorem WritesStream.unique {c : Cfg} {i : Instr} {v w : Byte} (hv : WritesStream c i v)
    (hw : WritesStream c i w) : v = w := by
  cases i with
  | readByte a => exact hv.elim
  | readRaw a n => exact hv.elim
  | writeByte u a => exact hv.2.trans hw.2.symm
  | writeRaw d a =>
    obtain ⟨-, -, hv⟩ := hv
    obtain ⟨-, -, hw⟩ := hw
    exact Option.some.inj (hv.symm.trans hw)
  | size => exact hv.elim

theorem execReadByte_streamUse {i : Addr} {s t : State} (h : execReadByte i s = .next t) :
    StreamUse (.readByte i) s t := by
  obtain ⟨hi, b, f, -, rfl⟩ | ⟨hi, -, rfl⟩ | ⟨hi, -, -, rfl⟩ | ⟨hi, -, -, rfl⟩ := execReadByte_next h
  · exact .read hi { readsOnce_afterRead s b f with }
  all_goals exact .none hi (fun _ => id) ⟨rfl, rfl, rfl, rfl⟩

theorem execReadRaw_streamUse {a : Addr} {n : Nat} {s t : State} (h : execReadRaw a n s = .next t) :
    StreamUse (.readRaw a n) s t := by
  have not_reads (hne : ¬ (ValidSpan a.toNat n ∧
      classify a.toNat n s.cfg.stdinAddr.toNat = .firstIsBoundary)) (hq : NoStreamCall s t) :
      StreamUse (.readRaw a n) s t :=
    .none ((readsStream_readRaw_iff ..).not.2 hne) (fun _ => id) hq
  obtain ⟨hbad, rfl⟩ | ⟨hspan, hc, ⟨b, -, rfl⟩ | ⟨b, f, -, rfl⟩⟩ | ⟨-, hc, rfl⟩ | ⟨-, hc, -, rfl⟩ |
    ⟨-, hc, -, rfl⟩ := execReadRaw_next h
  · refine not_reads (fun ⟨hspan, hc⟩ => ?_) ⟨rfl, rfl, rfl, rfl⟩
    simp [hspan, hc] at hbad
  · exact .read ((readsStream_readRaw_iff ..).2 ⟨hspan, hc⟩) { readsOnce_afterRead s b none with }
  · exact .read ((readsStream_readRaw_iff ..).2 ⟨hspan, hc⟩) { readsOnce_afterRead s b (some f) with }
  · exact not_reads (by simp [hc]) ⟨rfl, rfl, rfl, rfl⟩
  · exact not_reads (by simp [hc]) (by constructor <;> simp)
  · exact not_reads (by simp [hc]) ⟨rfl, rfl, rfl, rfl⟩

theorem execWriteByte_streamUse {v : Byte} {i : Addr} {s t : State} (h : execWriteByte v i s = .next t) :
    StreamUse (.writeByte v i) s t := by
  obtain ⟨hi, k, f, -, rfl⟩ | ⟨hi, -, rfl⟩ | ⟨hi, -, -, rfl⟩ | ⟨hi, -, -, rfl⟩ := execWriteByte_next h
  · exact .write v ⟨hi, rfl⟩ { writesOnce_afterWrite v s k f with }
  all_goals exact .none id (fun _ hw => hi hw.1) ⟨rfl, rfl, rfl, rfl⟩

/-- R121: an emitting span of a well-formed configuration does not cross, so it is not turned away first. -/
theorem execWriteRaw_streamUse {d : List Byte} {a : Addr} {s t : State} (hcfg : CfgOk s.cfg)
    (h : execWriteRaw d a s = .next t) : StreamUse (.writeRaw d a) s t := by
  obtain ⟨hbad, rfl⟩ | ⟨hspan, -, hend, k, f, -, rfl⟩ | ⟨-, -, hend, -, rfl⟩ | ⟨-, -, hend, -, rfl⟩ :=
    execWriteRaw_next h
  · refine .none id (fun _ ⟨hspan, _⟩ => ?_) ⟨rfl, rfl, rfl, rfl⟩
    exact hbad.elim (· hspan) (classify_ne_crosses_of_aligned hspan (hcfg.aligned (.inr rfl)))
  · exact .write (lastByte d) ⟨hspan, hend, getLast?_of_validSpan hspan⟩
      { writesOnce_afterWrite (lastByte d) s k f with }
  all_goals exact .none id (fun _ ⟨_, he, _⟩ => hend he) ⟨rfl, rfl, rfl, rfl⟩

/-- Every operation uses the streams in one of the three ways. -/
theorem exec_streamUse {i : Instr} {s t : State} (hcfg : CfgOk s.cfg) (h : exec i s = .next t) :
    StreamUse i s t := by
  cases i with
  | readByte a => exact execReadByte_streamUse h
  | readRaw a n => exact execReadRaw_streamUse h
  | writeByte v a => exact execWriteByte_streamUse h
  | writeRaw d a => exact execWriteRaw_streamUse hcfg h
  | size =>
    obtain rfl := Host.Outcome.next.inj h
    exact .none id (fun _ => id) ⟨rfl, rfl, rfl, rfl⟩

/-- Settles O29: the device cases exclude each other, so each fixes which use of the streams it was. -/
theorem atMostOneStreamCall : Obligations.AtMostOneStreamCall := by
  intro i s t hcfg h
  cases exec_streamUse hcfg h with
  | read hi hr =>
    exact ⟨fun _ => ⟨hr.calls, hr.inp, hr.outp, hr.out, hr.mem⟩,
      fun v hw => absurd hw (not_writesStream_of_readsStream hi v), fun hn _ => absurd hi hn⟩
  | write v hi hw =>
    refine ⟨fun hr => absurd hi (not_writesStream_of_readsStream hr v), fun w hi' => ?_,
      fun _ hn => absurd hi (hn v)⟩
    obtain rfl := hi.unique hi'
    exact ⟨hw.calls, hw.outp, hw.inp, hw.mem⟩
  | none hr hw hq =>
    exact ⟨fun hi => absurd hi hr, fun v hi => absurd hi (hw v),
      fun _ _ => ⟨hq.calls, hq.inp, hq.outp, hq.out⟩⟩

/-! ### Plain reads -/

/-- R81: a span that shares no byte with a device word is tagged as outside it. -/
theorem classify_outside_of_misses {s n b : Nat} (hn : 0 < n) (h : SpanMisses s n b) :
    classify s n b = .outsideBoundary := by
  rw [classify_outside_iff]
  by_contra hcon
  exact h (max s b) (by omega) (by omega) ⟨by omega, by omega⟩

theorem execReadRaw_of_plain {a : Addr} {n : Nat} {s : State} (hspan : ValidSpan a.toNat n)
    (hmiss : SpanMisses a.toNat n s.cfg.stdinAddr.toNat) (hr : a.toNat + n ≤ s.cfg.memSize.toNat) :
    execReadRaw a n s = .next (s.respondRaw ⟨a, n⟩ (s.bytesAt a.toNat n)
      (plainReadFlag s.cfg a.toNat n (bsBacked s.cfg a n))) := by
  rw [execReadRaw, if_neg (not_not_intro hspan),
    classify_outside_of_misses (validSpan_pos hspan) hmiss, (bsReadRaw_ok_iff ..).2 ⟨hr, rfl⟩]

theorem SpanMisses.mono {a n b a' n' : Nat} (h : SpanMisses a n b) (hlo : a ≤ a')
    (hhi : a' + n' ≤ a + n) : SpanMisses a' n' b :=
  fun x hx hx' => h x (by omega) (by omega)

theorem State.bytesAt_one (s : State) (a : Nat) : s.bytesAt a 1 = [s.byteAt a] := rfl

/-- R46: element `k` of a result is the byte at address `a + k`. -/
theorem State.bytesAt_getElem?_eq_some {s : State} {a n k : Nat} {v : Byte}
    (h : (s.bytesAt a n)[k]? = some v) : k < n ∧ v = s.byteAt (a + k) := by
  obtain ⟨hk, rfl⟩ := List.getElem?_eq_some_iff.1 h
  exact ⟨by simpa using hk, State.bytesAt_getElem s a n k hk⟩

/-- R10, R32: an address in range plus an offset that stays in range does not wrap. -/
theorem CfgOk.toNat_add_ofNat {c : Cfg} (hc : CfgOk c) {a : Addr} {k : Nat}
    (h : a.toNat + k < c.memSize.toNat) : (a + BitVec.ofNat 32 k).toNat = a.toNat + k := by
  obtain ⟨-, -, -, hmem⟩ := hc
  rw [BitVec.toNat_add, BitVec.toNat_ofNat]
  omega

/-- Settles O35: all five spans are plain and in range, and each read answers the backing store's bytes. -/
theorem wideReadEqualsByteReads : Obligations.WideReadEqualsByteReads := by
  intro s a hc ha hmiss hr
  refine ⟨s.bytesAt a.toNat 4, _, _, execReadRaw_of_plain (.inr (.inr ⟨rfl, ha⟩)) hmiss hr,
    State.respondRaw_responses .., State.bytesAt_length .., fun k v hv => ?_⟩
  obtain ⟨hk, rfl⟩ := State.bytesAt_getElem?_eq_some hv
  have hak : (a + BitVec.ofNat 32 k).toNat = a.toNat + k := hc.toNat_add_ofNat (by omega)
  have hread := execReadRaw_of_plain (s := s) (a := a + BitVec.ofNat 32 k) (n := 1) (.inl rfl)
    (hmiss.mono (by omega) (by omega)) (by omega)
  rw [hak, State.bytesAt_one] at hread
  exact ⟨_, _, hread, State.respondRaw_responses ..⟩

/-! ### The order of service -/

/-- R65, R157: an operation that completes takes nothing from the port and delivers one response. -/
structure AnswersOnce (s t : State) : Prop where
  port : t.port = s.port
  responses : ∃ r, t.responses = s.responses ++ [r]

theorem execReadByte_answersOnce {i : Addr} {s t : State} (h : execReadByte i s = .next t) :
    AnswersOnce s t := by
  obtain ⟨-, b, f, -, rfl⟩ | ⟨-, -, rfl⟩ | ⟨-, -, -, rfl⟩ | ⟨-, -, -, rfl⟩ := execReadByte_next h <;>
    exact ⟨rfl, _, rfl⟩

theorem execReadRaw_answersOnce {a : Addr} {n : Nat} {s t : State} (h : execReadRaw a n s = .next t) :
    AnswersOnce s t := by
  obtain ⟨-, rfl⟩ | ⟨-, -, ⟨b, -, rfl⟩ | ⟨b, f, -, rfl⟩⟩ | ⟨-, -, rfl⟩ | ⟨-, -, -, rfl⟩ |
    ⟨-, -, -, rfl⟩ := execReadRaw_next h
  · exact ⟨rfl, _, rfl⟩
  · exact ⟨rfl, _, rfl⟩
  · exact ⟨rfl, _, rfl⟩
  · exact ⟨rfl, _, rfl⟩
  · exact ⟨State.respondRaw_port .., _, State.respondRaw_responses ..⟩
  · exact ⟨rfl, _, rfl⟩

theorem execWriteByte_answersOnce {v : Byte} {i : Addr} {s t : State}
    (h : execWriteByte v i s = .next t) : AnswersOnce s t := by
  obtain ⟨-, k, f, -, rfl⟩ | ⟨-, -, rfl⟩ | ⟨-, -, -, rfl⟩ | ⟨-, -, -, rfl⟩ := execWriteByte_next h <;>
    exact ⟨rfl, _, rfl⟩

theorem execWriteRaw_answersOnce {d : List Byte} {a : Addr} {s t : State}
    (h : execWriteRaw d a s = .next t) : AnswersOnce s t := by
  obtain ⟨-, rfl⟩ | ⟨-, -, -, k, f, -, rfl⟩ | ⟨-, -, -, -, rfl⟩ | ⟨-, -, -, -, rfl⟩ :=
    execWriteRaw_next h <;> exact ⟨rfl, _, rfl⟩

theorem exec_answersOnce {i : Instr} {s t : State} (h : exec i s = .next t) : AnswersOnce s t := by
  cases i with
  | readByte a => exact execReadByte_answersOnce h
  | readRaw a n => exact execReadRaw_answersOnce h
  | writeByte v a => exact execWriteByte_answersOnce h
  | writeRaw d a => exact execWriteRaw_answersOnce h
  | size =>
    obtain rfl := Host.Outcome.next.inj h
    exact ⟨rfl, _, rfl⟩

/-- R91, R92: an operation adds at most one byte at the end of `out`. -/
theorem StreamUse.out {i : Instr} {s t : State} (h : StreamUse i s t) :
    ∃ bs, t.out = s.out ++ bs ∧ bs.length ≤ 1 := by
  cases h with
  | read _ hr => exact ⟨[], by simp [hr.out], by simp⟩
  | write v _ hw =>
    obtain hout | hout := hw.out
    · exact ⟨[], by simp [hout], by simp⟩
    · exact ⟨[v], hout, by simp⟩
  | none _ _ hq => exact ⟨[], by simp [hq.out], by simp⟩

/-- R92: an operation uses at most one answer of the input stream. -/
theorem StreamUse.inp {i : Instr} {s t : State} (h : StreamUse i s t) :
    ∃ j, j ≤ 1 ∧ t.inp = s.inp.drop j := by
  cases h with
  | read _ hr => exact ⟨1, le_rfl, by simp [hr.inp]⟩
  | write _ _ hw => exact ⟨0, by omega, by simp [hw.inp]⟩
  | none _ _ hq => exact ⟨0, by omega, by simp [hq.inp]⟩

/-- R60: whether a caller action is a request. -/
def isRequest : CallerAction → Bool
  | .request _ => true
  | _ => false

/-- R50, R65: what `k` steps from `s` to `t` have done for the caller: `k` actions taken from the port, a
response for each request among them, and the streams moved on by at most `k`. -/
structure Served (k : Nat) (s t : State) : Prop where
  port : t.port = s.port.drop k
  responses : ∃ rs, t.responses = s.responses ++ rs ∧ rs.length = ((s.port.take k).filter isRequest).length
  out : ∃ bs, t.out = s.out ++ bs ∧ bs.length ≤ k
  inp : ∃ j, j ≤ k ∧ t.inp = s.inp.drop j

/-- Steps that find no request: nothing is answered and no stream moves. -/
theorem Served.of_quiet {k : Nat} {s t : State} (hport : t.port = s.port.drop k)
    (hno : (s.port.take k).filter isRequest = []) (hresp : t.responses = s.responses)
    (hout : t.out = s.out) (hinp : t.inp = s.inp) : Served k s t where
  port := hport
  responses := ⟨[], by simp [hresp], by simp [hno]⟩
  out := ⟨[], by simp [hout], by simp⟩
  inp := ⟨0, by omega, by simp [hinp]⟩

theorem Served.trans {j k : Nat} {s u t : State} (h : Served j s u) (h' : Served k u t) :
    Served (j + k) s t := by
  obtain ⟨hport, ⟨rs, hresp, hrs⟩, ⟨bs, hout, hbs⟩, ⟨m, hm, hinp⟩⟩ := h
  obtain ⟨hport', ⟨rs', hresp', hrs'⟩, ⟨bs', hout', hbs'⟩, ⟨m', hm', hinp'⟩⟩ := h'
  refine ⟨?_, ⟨rs ++ rs', ?_, ?_⟩, ⟨bs ++ bs', ?_, ?_⟩, ⟨m + m', by omega, ?_⟩⟩
  · rw [hport', hport, List.drop_drop]
  · rw [hresp', hresp, List.append_assoc]
  · rw [List.take_add, List.filter_append, List.length_append, List.length_append, hrs, hrs', hport]
  · rw [hout', hout, List.append_assoc]
  · rw [List.length_append]
    omega
  · rw [hinp', hinp, List.drop_drop]

theorem served_request {s t : State} {q : Transaction} {rest : List CallerAction} {i : Instr}
    (hcfg : CfgOk s.cfg) (hp : s.port = .request q :: rest)
    (h : exec i { s with port := rest } = .next t) : Served 1 s t := by
  obtain ⟨hport, r, hresp⟩ := exec_answersOnce h
  have huse := exec_streamUse (s := { s with port := rest }) hcfg h
  exact ⟨by simp [hport, hp], ⟨[r], hresp, by rw [hp]; rfl⟩, huse.out, huse.inp⟩

/-- R68: a caller write is no request. -/
theorem served_bufferWrite {s t : State} {r k : Nat} {v : Byte} {rest : List CallerAction}
    (hp : s.port = .bufferWrite r k v :: rest)
    (h : bufferWrite r k v { s with port := rest } = .next t) : Served 1 s t := by
  obtain ⟨w, -, -, -, rfl⟩ | ⟨d, -, -, rfl⟩ := bufferWrite_next h <;>
    exact .of_quiet (by simp [hp]) (by simp [hp, isRequest]) rfl rfl rfl

theorem step_served {s t : State} (h : step s = .next t) : Served 1 s t := by
  obtain ⟨hcfg, ⟨hp, rfl⟩ | ⟨q, rest, i, hp, -, hexec⟩ | ⟨r, k, v, rest, hp, hwrite⟩⟩ := step_next h
  · exact .of_quiet (by simp [hp]) (by simp [hp]) rfl rfl rfl
  · exact served_request hcfg hp hexec
  · exact served_bufferWrite hp hwrite

theorem run_served {k : Nat} {s t : State} (h : Host.Core.run Sys2Proof.core k s = .next t) :
    Served k s t := by
  induction k generalizing s with
  | zero =>
    obtain rfl := Host.Outcome.next.inj h
    exact .of_quiet rfl (by simp) rfl rfl rfl
  | succ k ih =>
    rw [run_succ] at h
    cases hstep : step s with
    | next u =>
      rw [hstep] at h
      exact Nat.add_comm 1 k ▸ (step_served hstep).trans (ih h)
    | fault r => simp [hstep] at h
    | refused r => simp [hstep] at h

/-- Settles O48, by the steps of the run. -/
theorem runServesActionsInOrder : Obligations.RunServesActionsInOrder := by
  intro k s t h
  obtain ⟨hport, hresp, hout, hinp⟩ := run_served h
  have hreq : isRequest = fun a => match a with | .request _ => true | _ => false := by
    funext a
    cases a <;> rfl
  exact ⟨hport, hreq ▸ hresp, hout, hinp⟩

end Sys2Proof.Machine
end

section
/-! The encodings of `30_encoding.md`: requests, responses and classifier tags. -/

namespace Sys2Proof

/-! ### What each decoded transaction looks like -/

/-- R60, R63: one row of the opcode map for each operation: the transactions that ask for it. The fields
the operation ignores are free. -/
inductive Asks : Transaction → Instr → Prop
  | readByte {header : BitVec 32} {a : Addr} (hop : headerOp header = 0x01#8) :
      Asks ⟨header, a, []⟩ (.readByte a)
  | readRaw {header : BitVec 32} {a : Addr} {n : Nat} (hop : headerOp header = 0x02#8)
      (hlen : headerLen header = n) : Asks ⟨header, a, []⟩ (.readRaw a n)
  | writeByte {header : BitVec 32} {a : Addr} {v : Byte} (hop : headerOp header = 0x03#8) :
      Asks ⟨header, a, [v]⟩ (.writeByte v a)
  | writeRaw {header : BitVec 32} {a : Addr} {d : List Byte} (hop : headerOp header = 0x04#8)
      (hlen : headerLen header = d.length) : Asks ⟨header, a, d⟩ (.writeRaw d a)
  | size {header : BitVec 32} {a : Addr} (hop : headerOp header = 0x05#8) : Asks ⟨header, a, []⟩ .size

theorem Asks.decode_eq {t : Transaction} {i : Instr} (h : Asks t i) : decode t = .ok i := by
  cases h with
  | readByte hop => simp [decode, hop]
  | readRaw hop hlen => simp [decode, hop, hlen]
  | writeByte hop => simp [decode, hop]
  | writeRaw hop hlen => simp [decode, hop, hlen]
  | size hop => simp [decode, hop]

/-- Along the branches of `decode`: each answers its own operation, and only for the payload of its row. -/
theorem Asks.of_decode {t : Transaction} {i : Instr} (h : decode t = .ok i) : Asks t i := by
  obtain ⟨header, a, p⟩ := t
  unfold decode at h
  split_ifs at h with h1 h2 h3 h4 hlen h5
  · obtain _ | _ := p <;> cases h
    exact .readByte h1
  · obtain _ | _ := p <;> cases h
    exact .readRaw h2 rfl
  · obtain _ | ⟨v, _ | _⟩ := p <;> cases h
    exact .writeByte h3
  · cases h
    exact .writeRaw h4 hlen.symm
  · obtain _ | _ := p <;> cases h
    exact .size h5

theorem decode_eq_ok_iff {t : Transaction} {i : Instr} : decode t = .ok i ↔ Asks t i :=
  ⟨Asks.of_decode, Asks.decode_eq⟩

/-- R64: the reserved values of `op` are all but `0x01 .. 0x05`. -/
theorem decode_of_reservedOp {t : Transaction}
    (h : headerOp t.header = 0#8 ∨ 6 ≤ (headerOp t.header).toNat) :
    decode t = .error (.reservedOp (headerOp t.header)) := by
  have hne {op : BitVec 8} (h0 : op ≠ 0#8) (h6 : op.toNat < 6) : headerOp t.header ≠ op := by
    rintro rfl
    exact h.elim h0 (by omega)
  rw [decode, if_neg (hne (by decide) (by decide)), if_neg (hne (by decide) (by decide)),
    if_neg (hne (by decide) (by decide)), if_neg (hne (by decide) (by decide)),
    if_neg (hne (by decide) (by decide))]

/-! ### The encoder against the decoder -/

theorem asks_encode {i : Instr} (h : i.wellFormed = true) : Asks (encode i) i := by
  cases i with
  | readByte a => exact .readByte (headerOp_makeHeader ..)
  | readRaw a n => exact .readRaw (headerOp_makeHeader ..) (headerLen_makeHeader (of_decide_eq_true h) _)
  | writeByte v a => exact .writeByte (headerOp_makeHeader ..)
  | writeRaw d a => exact .writeRaw (headerOp_makeHeader ..) (headerLen_makeHeader (of_decide_eq_true h) _)
  | size => exact .size (headerOp_makeHeader ..)

/-- Settles O1: the encoder writes the row of the opcode map that the decoder reads. -/
theorem decodeEncodeRoundTrip : Obligations.DecodeEncodeRoundTrip :=
  fun _ h => (asks_encode h).decode_eq

theorem headerOp_encode (i : Instr) : headerOp (encode i).header = i.opcode := by
  cases i <;> exact headerOp_makeHeader ..

section
variable {t : Transaction} {i : Instr}

/-- R61: a length read from 24 bits is below `2^24`. -/
theorem Asks.wellFormed (h : Asks t i) : i.wellFormed = true := by
  cases h with
  | readRaw _ hlen => exact decide_eq_true (hlen ▸ headerLen_lt _)
  | writeRaw _ hlen => exact decide_eq_true (hlen ▸ headerLen_lt _)
  | _ => rfl

theorem Asks.headerOp_eq (h : Asks t i) : headerOp t.header = i.opcode := by
  cases h <;> assumption

theorem Asks.payload_encode (h : Asks t i) : (encode i).payload = t.payload := by
  cases h <;> rfl

/-- R62: the payload's length follows from the header. -/
theorem Asks.payloadLength_eq (h : Asks t i) : payloadLength t.header = t.payload.length := by
  cases h with
  | writeRaw hop hlen => simp [payloadLength, hop, hlen]
  | readByte hop | readRaw hop _ | writeByte hop | size hop => simp [payloadLength, hop]

/-- R60: every operation but `SIZE` sends its address. -/
theorem Asks.addr_encode (h : Asks t i) (hsize : i ≠ .size) : (encode i).addr = t.addr := by
  cases h with
  | size => exact absurd rfl hsize
  | _ => rfl

/-- R60: the header of a request whose `len` means something holds that length and the code, and so is
the one the encoder writes. -/
theorem makeHeader_of_fields {header : BitVec 32} {n : Nat} {op : BitVec 8} (hop : headerOp header = op)
    (hlen : headerLen header = n) : makeHeader n op = header := by
  rw [← hop, ← hlen, makeHeader_fields]

theorem Asks.header_encode_of_raw (h : Asks t i)
    (hraw : headerOp t.header = 0x02#8 ∨ headerOp t.header = 0x04#8) : (encode i).header = t.header := by
  cases h with
  | readRaw hop hlen => exact makeHeader_of_fields hop hlen
  | writeRaw hop hlen => exact makeHeader_of_fields hop hlen
  | readByte hop | writeByte hop | size hop => simp [hop] at hraw

end

/-- Settles O2, by the row of the opcode map that the transaction is. -/
theorem decodedTransactionIsCanonical : Obligations.DecodedTransactionIsCanonical := by
  intro t i h
  have hasks := decode_eq_ok_iff.1 h
  have hlen : requestLength t.header = 8 + t.payload.length := by
    rw [requestLength, hasks.payloadLength_eq]
  exact ⟨hasks.wellFormed, (headerOp_encode i).trans hasks.headerOp_eq.symm, hasks.payload_encode, hlen,
    hasks.addr_encode, hasks.header_encode_of_raw⟩

/-- Settles O3, row by row. -/
theorem opcodeMapDecodes : Obligations.OpcodeMapDecodes :=
  ⟨fun _ _ => (Asks.readByte (headerOp_makeHeader ..)).decode_eq,
   fun _ _ h => (Asks.readRaw (headerOp_makeHeader ..) (headerLen_makeHeader h _)).decode_eq,
   fun _ _ _ => (Asks.writeByte (headerOp_makeHeader ..)).decode_eq,
   fun _ _ h => (Asks.writeRaw (headerOp_makeHeader ..) (headerLen_makeHeader h _)).decode_eq,
   fun _ _ => (Asks.size (headerOp_makeHeader ..)).decode_eq⟩

/-- R69: to check a row, encode its operation: the words decode back. -/
theorem decode_and_encode_of_encode_eq {t : Transaction} {i : Instr} (hwf : i.wellFormed = true)
    (h : encode i = t) : decode t = .ok i ∧ encode i = t :=
  ⟨h ▸ (asks_encode hwf).decode_eq, h⟩

/-! ### Numbers as bytes -/

/-- The value of a number's bytes, read least significant first. -/
theorem bytesLE_value (n v : Nat) :
    ((bytesLE n v).map BitVec.toNat).foldr (fun b acc => b + 256 * acc) 0 = v % 256 ^ n := by
  induction n generalizing v with
  | zero => simp [bytesLE, Nat.mod_one]
  | succ n ih =>
    calc ((bytesLE (n + 1) v).map BitVec.toNat).foldr (fun b acc => b + 256 * acc) 0
        = v % 256 + 256 * (v / 256 % 256 ^ n) := by rw [← ih]; rfl
      _ = v % 256 ^ (n + 1) := by rw [Nat.pow_succ', Nat.mod_mul]

/-- A number that fits in its field is read back from its bytes. -/
theorem bytesLE_value_of_lt {n v : Nat} (h : v < 256 ^ n) :
    ((bytesLE n v).map BitVec.toNat).foldr (fun b acc => b + 256 * acc) 0 = v := by
  rw [bytesLE_value, Nat.mod_eq_of_lt h]

end Sys2Proof

namespace Sys2Proof.Machine

/-! ### Requests that are refused or answer a fault -/

theorem execReadRaw_of_not_validSpan {a : Addr} {n : Nat} (h : ¬ ValidSpan a.toNat n) (s : State) :
    execReadRaw a n s =
      .next (s.reportFault (.accessViolation { location := a, numBytes := n, wasRead := true })) := by
  rw [execReadRaw, if_pos h]

/-- Settles O4: each row is checked on the encoder's side, and O1 gives the decoder's. -/
theorem workedEncodingsHold : Obligations.WorkedEncodingsHold := by
  obtain ⟨hdec, henc⟩ := decode_and_encode_of_encode_eq (i := .readRaw 0x80#32 3)
    (t := ⟨0x00000302#32, 0x80#32, []⟩) (by decide) (by decide)
  exact ⟨decode_and_encode_of_encode_eq (by decide) (by decide),
    decode_and_encode_of_encode_eq (by decide) (by decide),
    decode_and_encode_of_encode_eq (by decide) (by decide),
    decode_and_encode_of_encode_eq (by decide) (by decide),
    decode_and_encode_of_encode_eq (by decide) (by decide),
    decode_and_encode_of_encode_eq (by decide) (by decide),
    ⟨hdec, henc, execReadRaw_of_not_validSpan (by decide)⟩,
    fun _ => decode_of_reservedOp (.inr (show 6 ≤ (headerOp 0x00000007#32).toNat by decide))⟩

theorem decodeRequest_of_reservedOp {q : Transaction} {op : BitVec 8}
    (h : decode q = .error (.reservedOp op)) : decodeRequest q = .error (.illegalRequest op) := by
  rw [decodeRequest, h]

/-- Settles O5: a step decodes before anything else, and a reserved `op` does not decode. -/
theorem reservedOpIsRefused : Obligations.ReservedOpIsRefused := fun _ _ _ hc hp hop =>
  ⟨step_of_refused_request hc hp (decodeRequest_of_reservedOp (decode_of_reservedOp hop)), rfl, rfl⟩

/-! ### Responses -/

theorem responseStatus_lt (r : Response) : (responseStatus r).toNat < 5 := by
  cases r with
  | fault f => cases f <;> simp [responseStatus]
  | _ => simp [responseStatus]

/-- Settles O6: the table is the definition's own, and no code of it reaches 5. -/
theorem responseStatusCodes : Obligations.ResponseStatusCodes :=
  ⟨fun _ => rfl, fun _ _ => rfl, rfl, fun _ => rfl, fun _ => rfl, fun _ => rfl, fun _ => rfl, rfl,
   responseStatus_lt⟩

/-- Settles O7: the fields of more than one byte are `bytesLE`, which `bytesLE_value_of_lt` reads back. -/
theorem responsePayloadLayout : Obligations.ResponsePayloadLayout :=
  ⟨fun _ => rfl, fun _ _ => rfl, rfl,
   fun n hn => ⟨bytesLE 8 n, rfl, bytesLE_length .., bytesLE_value_of_lt hn⟩,
   fun i hi => ⟨bytesLE 4 i.location.toNat, bytesLE 4 i.numBytes, rfl, rfl, bytesLE_length ..,
     bytesLE_length .., bytesLE_value_of_lt i.location.isLt, bytesLE_value_of_lt hi⟩,
   fun _ => rfl, rfl⟩

/-! ### Classifier tags -/

theorem tagBits_surjective : Function.Surjective tagBits := by
  intro b
  have hb : b = 0b00#2 ∨ b = 0b01#2 ∨ b = 0b10#2 ∨ b = 0b11#2 := by
    revert b
    decide
  obtain rfl | rfl | rfl | rfl := hb
  · exact ⟨.crossesBoundary, rfl⟩
  · exact ⟨.firstIsBoundary, rfl⟩
  · exact ⟨.laterBytesInBoundary, rfl⟩
  · exact ⟨.outsideBoundary, rfl⟩

/-- Settles O8: the four codes are the definition's own, and they are all there are. -/
theorem classifierTagCodes : Obligations.ClassifierTagCodes :=
  ⟨rfl, rfl, rfl, rfl, tagBits_surjective⟩

/-! ### The response of each operation -/

/-- R65: the operation's one response is an `OK` answer of its own kind or a fault. -/
def AnswersInKind (i : Instr) (s t : State) : Prop :=
  ∃ r, t.responses = s.responses ++ [r] ∧ (OkAnswer i r ∨ ∃ f, r = .fault f)

theorem AnswersInKind.ok {i : Instr} {s t : State} {r : Response}
    (h : t.responses = s.responses ++ [r]) (hr : OkAnswer i r) : AnswersInKind i s t :=
  ⟨r, h, .inl hr⟩

theorem AnswersInKind.fault {i : Instr} {s t : State} {f : BlockFault}
    (h : t.responses = s.responses ++ [.fault f]) : AnswersInKind i s t :=
  ⟨.fault f, h, .inr ⟨f, rfl⟩⟩

/-- R90: what an input stream's answer leads to in `READ_BYTE`. -/
theorem AnswersInKind.of_readResponse (a : Addr) (s : State) (b : Option Byte) (f : Option FaultValue) :
    AnswersInKind (.readByte a) s ((s.afterRead b f).respond (readResponse s b f .byte)) := by
  cases f with
  | none => exact .ok rfl ⟨_, rfl⟩
  | some f => exact .fault rfl

/-- R91: what an output stream's answer leads to in either write. -/
theorem AnswersInKind.of_writeResponse {i : Instr} (hi : OkAnswer i .done) (s : State) (v : Byte) (taken : Bool)
    (f : Option FaultValue) : AnswersInKind i s ((s.afterWrite v taken f).respond (writeResponse f)) := by
  cases f with
  | none => exact .ok rfl hi
  | some f => exact .fault rfl

theorem execReadByte_answersInKind {a : Addr} {s t : State} (h : execReadByte a s = .next t) :
    AnswersInKind (.readByte a) s t := by
  obtain ⟨-, b, f, -, rfl⟩ | ⟨-, -, rfl⟩ | ⟨-, -, -, rfl⟩ | ⟨-, -, -, rfl⟩ := execReadByte_next h
  · exact .of_readResponse a s b f
  · exact .ok rfl ⟨_, rfl⟩
  · exact .ok rfl ⟨_, rfl⟩
  · exact .fault rfl

/-- R101: every result has the length asked for. -/
theorem execReadRaw_answersInKind {a : Addr} {n : Nat} {s t : State} (h : execReadRaw a n s = .next t) :
    AnswersInKind (.readRaw a n) s t := by
  obtain ⟨-, rfl⟩ | ⟨-, -, ⟨b, -, rfl⟩ | ⟨b, f, -, rfl⟩⟩ | ⟨-, -, rfl⟩ | ⟨-, -, -, rfl⟩ |
    ⟨-, -, -, rfl⟩ := execReadRaw_next h
  · exact .fault rfl
  · exact .ok rfl ⟨_, _, rfl, by simp⟩
  · exact .fault rfl
  · exact .ok rfl ⟨_, _, rfl, zeros_length n⟩
  · exact .ok (State.respondRaw_responses ..) ⟨_, _, rfl, State.bytesAt_length ..⟩
  · exact .fault rfl

theorem execWriteByte_answersInKind {v : Byte} {a : Addr} {s t : State}
    (h : execWriteByte v a s = .next t) : AnswersInKind (.writeByte v a) s t := by
  obtain ⟨-, k, f, -, rfl⟩ | ⟨-, -, rfl⟩ | ⟨-, -, -, rfl⟩ | ⟨-, -, -, rfl⟩ := execWriteByte_next h
  · exact .of_writeResponse (i := .writeByte v a) rfl s v k f
  · exact .ok rfl rfl
  · exact .ok rfl rfl
  · exact .fault rfl

theorem execWriteRaw_answersInKind {d : List Byte} {a : Addr} {s t : State}
    (h : execWriteRaw d a s = .next t) : AnswersInKind (.writeRaw d a) s t := by
  obtain ⟨-, rfl⟩ | ⟨-, -, -, k, f, -, rfl⟩ | ⟨-, -, -, -, rfl⟩ | ⟨-, -, -, -, rfl⟩ :=
    execWriteRaw_next h
  · exact .fault rfl
  · exact .of_writeResponse (i := .writeRaw d a) rfl s (lastByte d) k f
  · exact .ok rfl rfl
  · exact .fault rfl

theorem exec_answersInKind {i : Instr} {s t : State} (h : exec i s = .next t) : AnswersInKind i s t := by
  cases i with
  | readByte a => exact execReadByte_answersInKind h
  | readRaw a n => exact execReadRaw_answersInKind h
  | writeByte v a => exact execWriteByte_answersInKind h
  | writeRaw d a => exact execWriteRaw_answersInKind h
  | size =>
    obtain rfl := Host.Outcome.next.inj h
    exact .ok rfl ⟨_, rfl⟩

/-- Settles O26, operation by operation. -/
theorem everyOperationAnswersOnce : Obligations.EveryOperationAnswersOnce := fun _ _ _ h =>
  ⟨(exec_answersOnce h).port, exec_answersInKind h⟩

end Sys2Proof.Machine
end

section
/-! The boundary classifier of `40_classifier.md`: its tags against overlap, corner cases, valid spans. -/

namespace Sys2Proof.Machine

/-! ### Tags and overlap -/

/-- R81: for a nonempty span, the tag `OutsideBoundary` and sharing no byte with the word are the same. -/
theorem classify_outside_iff_misses {s n b : Nat} (hn : 0 < n) :
    classify s n b = .outsideBoundary ↔ SpanMisses s n b := by
  refine ⟨fun h x hlo hhi => ?_, classify_outside_of_misses hn⟩
  obtain ⟨k, rfl⟩ := Nat.exists_eq_add_of_le hlo
  exact not_inWord_of_outside h (by omega)

/-- R81: a crossing span has a byte in the word, the later of the two starts. -/
theorem exists_inWord_of_crosses {s n b : Nat} (h : classify s n b = .crossesBoundary) :
    ∃ x, s ≤ x ∧ x < s + n ∧ InWord b x := by
  rw [classify_crosses_iff] at h
  obtain ⟨hs, hend⟩ | ⟨hs, hs3, hend⟩ := h
  · exact ⟨b, by omega, hend, by omega, by omega⟩
  · exact ⟨s, by omega, by omega, hs, hs3⟩

/-- R81: a crossing span has a byte outside the word: its own first byte, or the first byte after the word. -/
theorem exists_not_inWord_of_crosses {s n b : Nat} (h : classify s n b = .crossesBoundary) :
    ∃ x, s ≤ x ∧ x < s + n ∧ ¬ InWord b x := by
  rw [classify_crosses_iff] at h
  obtain ⟨hs, hend⟩ | ⟨-, hs3, hend⟩ := h
  · exact ⟨s, by omega, by omega, by omega⟩
  · exact ⟨b + 4, by omega, hend, by omega⟩

/-- R81: a span with a byte on each side of the word's edge crosses it. -/
theorem classify_crosses_of_mem {s n b x y : Nat} (hx : s ≤ x ∧ x < s + n ∧ InWord b x)
    (hy : s ≤ y ∧ y < s + n ∧ ¬ InWord b y) : classify s n b = .crossesBoundary := by
  rw [classify_crosses_iff]
  omega

/-- Settles O9: a crossing is witnessed by a byte in the word and a byte outside it. -/
theorem classifyTellsOverlap : Obligations.ClassifyTellsOverlap := fun _ _ _ hn =>
  ⟨classify_outside_iff_misses hn,
   fun h => ⟨exists_inWord_of_crosses h, exists_not_inWord_of_crosses h⟩,
   fun ⟨⟨_, hx⟩, ⟨_, hy⟩⟩ => classify_crosses_of_mem hx hy⟩

/-! ### Corner cases -/

/-- Settles O10, from the arithmetic of each case's tag. -/
theorem classifyCornerCases : Obligations.ClassifyCornerCases := by
  refine ⟨fun b => ?emptyAtWord, fun s b htail => ?emptyInTail, fun s b hout => ?emptyOff,
    fun n b hn => ?longFromStart, fun n b => ?onePast, fun s n b hend hn => ?justBefore⟩
  case emptyAtWord => exact (classify_first_iff ..).2 ⟨rfl, by omega⟩
  case emptyInTail => exact (classify_later_iff ..).2 ⟨htail.1, htail.2, by omega⟩
  case emptyOff => exact (classify_outside_iff ..).2 (by omega)
  case longFromStart => exact (classify_crosses_iff ..).2 (.inr ⟨le_rfl, by omega, by omega⟩)
  case onePast => exact (classify_outside_iff ..).2 (.inr (by omega))
  case justBefore => exact (classify_outside_iff ..).2 (.inl ⟨by omega, hend.le⟩)

/-! ### Valid spans -/

/-- R82: a valid span has at most four bytes, so one that starts at the word's first byte stays in the word. -/
theorem classify_first_iff_of_validSpan {s n b : Nat} (hspan : ValidSpan s n) :
    classify s n b = .firstIsBoundary ↔ s = b := by
  have hn : n ≤ 4 := by obtain rfl | rfl | rfl := validSpan_size hspan <;> decide
  rw [classify_first_iff, and_iff_left hn]

/-- R82: the tail accesses, for each of the three valid sizes. -/
theorem classify_later_iff_of_validSpan {s n b : Nat} (hspan : ValidSpan s n) (hb : b % 4 = 0) :
    classify s n b = .laterBytesInBoundary ↔
      (n = 1 ∧ (s = b + 1 ∨ s = b + 2 ∨ s = b + 3)) ∨ (s = b + 2 ∧ n = 2) := by
  rw [classify_later_iff]
  obtain rfl | ⟨rfl, hs⟩ | ⟨rfl, hs⟩ := hspan <;> omega

/-- R80: `OutsideBoundary` is what is left of the four tags. -/
theorem Tag.eq_outside_iff {t : Tag} (hcross : t ≠ .crossesBoundary) :
    t = .outsideBoundary ↔ ¬ (t = .firstIsBoundary ∨ t = .laterBytesInBoundary) := by
  cases t with
  | crossesBoundary => exact absurd rfl hcross
  | firstIsBoundary | laterBytesInBoundary | outsideBoundary => decide

/-- R82: the valid spans in the word that end with it. -/
theorem validSpan_ending_with_word {s n b : Nat} (hspan : ValidSpan s n) (hb : b % 4 = 0)
    (hin : InWord b s) (hend : s + n - 1 = b + 3) :
    (s = b ∧ n = 4) ∨ (s = b + 2 ∧ n = 2) ∨ (s = b + 3 ∧ n = 1) := by
  obtain rfl | ⟨rfl, hs⟩ | ⟨rfl, hs⟩ := hspan <;> omega

/-- Settles O11: the valid spans never cross, so those outside are the ones with neither of the other tags. -/
theorem validSpanTags : Obligations.ValidSpanTags := by
  intro s n b hspan hb
  have hfirst := classify_first_iff_of_validSpan (b := b) hspan
  have hlater := classify_later_iff_of_validSpan hspan hb
  have hcross := classify_ne_crosses_of_aligned hspan hb
  refine ⟨hfirst, hlater, ?_, hcross, validSpan_ending_with_word hspan hb⟩
  rw [Tag.eq_outside_iff hcross, hfirst, hlater]

end Sys2Proof.Machine
end

section
/-! The redirector of `41_redirector.md`: a stream that never answers. -/

namespace Sys2Proof.Machine

/-! ### A silent stream -/

theorem streamIn_of_never {s : State} (h : s.nextRead = .never) : streamIn s = .stuck := by
  rw [streamIn, h]

theorem streamOut_of_never {v : Byte} {s : State} (h : s.nextWrite v = .never) :
    streamOut v s = .stuck := by
  rw [streamOut, h]

theorem execReadByte_of_silent {i : Addr} {s : State} (hread : s.nextRead = .never)
    (hi : ReadsStream s.cfg (.readByte i)) : execReadByte i s = .fault .stuckOnInput := by
  have haddr : i = s.cfg.stdinAddr := hi
  rw [execReadByte, if_pos haddr, streamIn_of_never hread]

theorem execReadRaw_of_silent {a : Addr} {n : Nat} {s : State} (hread : s.nextRead = .never)
    (hi : ReadsStream s.cfg (.readRaw a n)) : execReadRaw a n s = .fault .stuckOnInput := by
  obtain ⟨hspan, hfirst⟩ := (readsStream_readRaw_iff ..).1 hi
  rw [execReadRaw, if_neg (not_not_intro hspan), hfirst, streamIn_of_never hread]

theorem execWriteByte_of_silent {v w : Byte} {i : Addr} {s : State} (hwrite : s.nextWrite v = .never)
    (hi : WritesStream s.cfg (.writeByte w i) v) : execWriteByte w i s = .fault .stuckOnOutput := by
  obtain ⟨haddr, rfl⟩ := hi
  rw [execWriteByte, if_pos haddr, streamOut_of_never hwrite]

/-- R121: an emitting span of a well-formed configuration does not cross, so the stream is reached. -/
theorem execWriteRaw_of_silent {v : Byte} {d : List Byte} {a : Addr} {s : State} (hcfg : CfgOk s.cfg)
    (hwrite : s.nextWrite v = .never) (hi : WritesStream s.cfg (.writeRaw d a) v) :
    execWriteRaw d a s = .fault .stuckOnOutput := by
  obtain ⟨hspan, hend, hlast⟩ := hi
  have hcross := classify_ne_crosses_of_aligned hspan (hcfg.aligned (.inr rfl))
  rw [execWriteRaw, if_neg (not_not_intro hspan), if_neg hcross, if_pos hend,
    lastByte_of_getLast? hlast, streamOut_of_never hwrite]

/-- R93: the two reads are the operations that wait for the input stream. -/
theorem exec_of_silent_input {i : Instr} {s : State} (hread : s.nextRead = .never)
    (hi : ReadsStream s.cfg i) : exec i s = .fault .stuckOnInput := by
  cases i with
  | readByte a => exact execReadByte_of_silent hread hi
  | readRaw a n => exact execReadRaw_of_silent hread hi
  | writeByte v a => exact hi.elim
  | writeRaw d a => exact hi.elim
  | size => exact hi.elim

/-- R93: the two writes are the operations that wait for the output stream. -/
theorem exec_of_silent_output {i : Instr} {v : Byte} {s : State} (hcfg : CfgOk s.cfg)
    (hwrite : s.nextWrite v = .never) (hi : WritesStream s.cfg i v) :
    exec i s = .fault .stuckOnOutput := by
  cases i with
  | readByte a => exact hi.elim
  | readRaw a n => exact hi.elim
  | writeByte w a => exact execWriteByte_of_silent hwrite hi
  | writeRaw d a => exact execWriteRaw_of_silent hcfg hwrite hi
  | size => exact hi.elim

/-- Settles O21, stream by stream. -/
theorem silentStreamLeavesBlockStuck : Obligations.SilentStreamLeavesBlockStuck := fun _ hcfg =>
  ⟨fun hread _ hi => exec_of_silent_input hread hi,
   fun _ hwrite _ hi => exec_of_silent_output hcfg hwrite hi⟩

end Sys2Proof.Machine
end

section
/-! The read path of `42_read_path.md`: each case of `READ_BYTE` and `READ_RAW`, the BackedFlag, the frame. -/

namespace Sys2Proof.Machine

/-! ### The cases of `READ_BYTE` -/

theorem streamIn_of_no_fault {s : State} {b : Option Byte} (h : s.nextRead = .returned b none) :
    streamIn s = .ok (b.getD (Config.shortReadByte s.calls)) (s.afterRead b none) := by
  cases b <;> rw [streamIn, h] <;> rfl

theorem streamIn_of_fault {s : State} {b : Option Byte} {f : FaultValue}
    (h : s.nextRead = .returned b (some f)) : streamIn s = .fault f (s.afterRead b (some f)) := by
  rw [streamIn, h]

/-- R100: the device byte. -/
theorem execReadByte_of_device {i : Addr} {s : State} {b : Option Byte} {f : Option FaultValue}
    (hi : i = s.cfg.stdinAddr) (h : s.nextRead = .returned b f) :
    execReadByte i s = .next ((s.afterRead b f).respond (readResponse s b f .byte)) := by
  rw [execReadByte, if_pos hi]
  cases f with
  | none => rw [streamIn_of_no_fault h]; rfl
  | some f => rw [streamIn_of_fault h]; rfl

/-- R100: the tail of the stdin word. -/
theorem execReadByte_of_tail {i : Addr} {s : State} (h : InTail s.cfg.stdinAddr.toNat i.toNat) :
    execReadByte i s = .next (s.respond (.byte 0x00#8)) := by
  have hne : i ≠ s.cfg.stdinAddr := by
    rintro rfl
    exact absurd h.1 (lt_irrefl _)
  rw [execReadByte, if_neg hne, if_pos h]

/-- R100, R104: outside the stdin word the backing store's byte is the answer. -/
theorem execReadByte_of_store_ok {i : Addr} {s : State} {v : Byte}
    (hword : ¬ InWord s.cfg.stdinAddr.toNat i.toNat) (h : bsReadOneByte s i = .ok v) :
    execReadByte i s = .next (s.respond (.byte v)) := by
  obtain ⟨hfirst, htail⟩ := not_or.1 fun hin => hword ((inWord_iff ..).2 hin)
  rw [execReadByte, if_neg hfirst, if_neg htail, h]

/-- R100, R104: outside the stdin word the backing store's fault is the answer. -/
theorem execReadByte_of_store_error {i : Addr} {s : State} {f : AccessInfo}
    (hword : ¬ InWord s.cfg.stdinAddr.toNat i.toNat) (h : bsReadOneByte s i = .error f) :
    execReadByte i s = .next (s.reportFault (.backingStoreFault f)) := by
  obtain ⟨hfirst, htail⟩ := not_or.1 fun hin => hword ((inWord_iff ..).2 hin)
  rw [execReadByte, if_neg hfirst, if_neg htail, h]

/-- Settles O13: the first three clauses are the device byte's, by the stream's answer. -/
theorem readByteResult : Obligations.ReadByteResult := fun _ _ =>
  ⟨fun hi _ h => execReadByte_of_device hi h,
   fun hi h => ⟨_, execReadByte_of_device hi h⟩,
   fun hi _ _ h => execReadByte_of_device hi h,
   execReadByte_of_tail,
   fun hword hr => execReadByte_of_store_ok hword ((bsReadOneByte_ok_iff ..).2 ⟨hr, rfl⟩),
   fun hword hr => execReadByte_of_store_error hword ((bsReadOneByte_error_iff ..).2 ⟨hr, rfl⟩)⟩

/-! ### The BackedFlag of a plain read -/

/-- R101, R102: the flag of a plain read in terms of the bytes its span shares with the stdout word. -/
theorem plainReadFlag_iff_misses {n : Nat} (hn : 0 < n) (c : Cfg) (a : Nat) (bk : Bool) :
    plainReadFlag c a n bk = true ↔ SpanMisses a n c.stdoutAddr.toNat ∧ bk = true := by
  rw [plainReadFlag_iff, classify_outside_iff_misses hn]

theorem plainReadFlag_of_misses {a n : Nat} {c : Cfg} (hn : 0 < n)
    (h : SpanMisses a n c.stdoutAddr.toNat) (bk : Bool) : plainReadFlag c a n bk = bk :=
  if_pos (classify_outside_of_misses hn h)

theorem plainReadFlag_eq_false {a n : Nat} {c : Cfg} {bk : Bool} (hn : 0 < n)
    (h : InWord c.stdoutAddr.toNat a ∨ bk = false) : plainReadFlag c a n bk = false := by
  rw [← Bool.not_eq_true, plainReadFlag_iff_misses hn]
  rintro ⟨hmiss, hbacked⟩
  obtain hin | hnot := h
  · exact hmiss a le_rfl (by omega) hin
  · exact Bool.false_ne_true (hnot.symm.trans hbacked)

/-! ### The cases of `READ_RAW` -/

theorem execReadRaw_of_first {a : Addr} {n : Nat} {s : State} {b : Option Byte}
    (hspan : ValidSpan a.toNat n) (ha : a = s.cfg.stdinAddr) (h : s.nextRead = .returned b none) :
    execReadRaw a n s = .next ((s.afterRead b none).respondCopy
      (b.getD (Config.shortReadByte s.calls) :: List.replicate (n - 1) 0x00#8)) := by
  have hfirst := (classify_first_iff_of_validSpan hspan).2 (congrArg BitVec.toNat ha)
  rw [execReadRaw, if_neg (not_not_intro hspan), hfirst, streamIn_of_no_fault h,
    ← zeros_set_first (validSpan_pos hspan)]

theorem execReadRaw_of_first_fault {a : Addr} {n : Nat} {s : State} {b : Option Byte} {f : FaultValue}
    (hspan : ValidSpan a.toNat n) (ha : a = s.cfg.stdinAddr) (h : s.nextRead = .returned b (some f)) :
    execReadRaw a n s = .next ((s.afterRead b (some f)).reportFault (.streamFault f)) := by
  have hfirst := (classify_first_iff_of_validSpan hspan).2 (congrArg BitVec.toNat ha)
  rw [execReadRaw, if_neg (not_not_intro hspan), hfirst, streamIn_of_fault h]

/-- R44, R101: a valid span that starts in the tail of an aligned word ends in it, so it cannot cross. -/
theorem classify_later_of_tail {s n b : Nat} (hspan : ValidSpan s n) (hb : b % 4 = 0) (h : InTail b s) :
    classify s n b = .laterBytesInBoundary := by
  have hcross := classify_ne_crosses_of_aligned hspan hb
  rw [ne_eq, classify_crosses_iff] at hcross
  rw [classify_later_iff]
  omega

theorem execReadRaw_of_tail {a : Addr} {n : Nat} {s : State} (hcfg : CfgOk s.cfg)
    (hspan : ValidSpan a.toNat n) (h : InTail s.cfg.stdinAddr.toNat a.toNat) :
    execReadRaw a n s = .next (s.respondCopy (zeros n)) := by
  rw [execReadRaw, if_neg (not_not_intro hspan),
    classify_later_of_tail hspan (hcfg.aligned (.inl rfl)) h]

theorem execReadRaw_of_out_of_range {a : Addr} {n : Nat} {s : State} (hspan : ValidSpan a.toNat n)
    (hmiss : SpanMisses a.toNat n s.cfg.stdinAddr.toNat) (hr : s.cfg.memSize.toNat < a.toNat + n) :
    execReadRaw a n s =
      .next (s.reportFault (.backingStoreFault { location := a, numBytes := n, wasRead := true })) := by
  rw [execReadRaw, if_neg (not_not_intro hspan),
    classify_outside_of_misses (validSpan_pos hspan) hmiss, (bsReadRaw_error_iff ..).2 ⟨hr, rfl⟩]

/-- R30, R101: a plain read that touches the stdout word, or that the store does not back, is a copy. -/
theorem execReadRaw_of_unbacked {a : Addr} {n : Nat} {s : State} (hspan : ValidSpan a.toNat n)
    (hmiss : SpanMisses a.toNat n s.cfg.stdinAddr.toNat) (hr : a.toNat + n ≤ s.cfg.memSize.toNat)
    (h : InWord s.cfg.stdoutAddr.toNat a.toNat ∨ bsBacked s.cfg a n = false) :
    execReadRaw a n s = .next (s.respondCopy (s.bytesAt a.toNat n)) := by
  rw [execReadRaw_of_plain hspan hmiss hr, plainReadFlag_eq_false (validSpan_pos hspan) h]
  rfl

/-- R29, R101: a backed read outside both device words is a live view. -/
theorem execReadRaw_of_backed {a : Addr} {n : Nat} {s : State} (hspan : ValidSpan a.toNat n)
    (hmiss : SpanMisses a.toNat n s.cfg.stdinAddr.toNat) (hr : a.toNat + n ≤ s.cfg.memSize.toNat)
    (hout : SpanMisses a.toNat n s.cfg.stdoutAddr.toNat) (hbacked : bsBacked s.cfg a n = true) :
    execReadRaw a n s = .next (s.respondView ⟨a, n⟩ (s.bytesAt a.toNat n)) := by
  rw [execReadRaw_of_plain hspan hmiss hr, plainReadFlag_of_misses (validSpan_pos hspan) hout, hbacked]
  rfl

/-- Settles O14: a clause is one way `READ_RAW` ends; only the tail clause needs the words aligned. -/
theorem readRawResult : Obligations.ReadRawResult := fun s _ _ hcfg =>
  ⟨fun hbad => execReadRaw_of_not_validSpan hbad s, fun hspan =>
    ⟨fun ha _ h => execReadRaw_of_first hspan ha h,
     fun ha h => ⟨_, execReadRaw_of_first hspan ha h⟩,
     fun ha _ _ h => execReadRaw_of_first_fault hspan ha h,
     execReadRaw_of_tail hcfg hspan,
     execReadRaw_of_out_of_range hspan,
     fun hmiss hr => ⟨execReadRaw_of_unbacked hspan hmiss hr, execReadRaw_of_backed hspan hmiss hr⟩⟩⟩

/-- Settles O33: `READ_RAW`'s flag passes through because the span misses the stdout word. -/
theorem plainReadsEqualBackingStore : Obligations.PlainReadsEqualBackingStore := by
  refine fun s a _ => ⟨fun hin _ => ?readByte, fun n hspan hin hout => ?readRaw⟩
  case readByte =>
    rcases e : bsReadOneByte s a with f | v
    · exact ⟨_, execReadByte_of_store_error hin e, rfl⟩
    · exact ⟨_, execReadByte_of_store_ok hin e, rfl⟩
  case readRaw =>
    rcases e : bsReadRaw s a n with f | ⟨d, bk⟩
    · obtain ⟨hr, rfl⟩ := (bsReadRaw_error_iff ..).1 e
      exact ⟨_, execReadRaw_of_out_of_range hspan hin hr, rfl⟩
    · obtain ⟨hr, hd⟩ := (bsReadRaw_ok_iff ..).1 e
      obtain ⟨rfl, rfl⟩ := Prod.mk.inj hd
      refine ⟨_, execReadRaw_of_plain hspan hin hr, ?_⟩
      rw [State.respondRaw_responses, plainReadFlag_of_misses (validSpan_pos hspan) hout]

/-! ### When the BackedFlag is set -/

/-- Settles O32: of the ways to answer a buffer, two are for a span in the stdin word and never backed, and
the plain read's flag is `plainReadFlag`. -/
theorem backedFlagIff : Obligations.BackedFlagIff := by
  intro s t a n d bk _ h hresp
  have in_stdin_word (hspan : ValidSpan a.toNat n)
      (hc : classify a.toNat n s.cfg.stdinAddr.toNat ≠ .outsideBoundary) :
      false = true ↔ SpanMisses a.toNat n s.cfg.stdinAddr.toNat ∧
        SpanMisses a.toNat n s.cfg.stdoutAddr.toNat ∧ bsBacked s.cfg a n = true :=
    iff_of_false Bool.false_ne_true fun ⟨hmiss, _⟩ =>
      hc (classify_outside_of_misses (validSpan_pos hspan) hmiss)
  obtain ⟨-, rfl⟩ | ⟨hspan, hc, ⟨b, -, rfl⟩ | ⟨b, f, -, rfl⟩⟩ | ⟨hspan, hc, rfl⟩ |
    ⟨hspan, hc, -, rfl⟩ | ⟨-, -, -, rfl⟩ := execReadRaw_next h
  · simp at hresp
  · obtain ⟨-, rfl⟩ : _ = d ∧ false = bk := by simpa using hresp
    exact in_stdin_word hspan (by simp [hc])
  · simp at hresp
  · obtain ⟨-, rfl⟩ : _ = d ∧ false = bk := by simpa using hresp
    exact in_stdin_word hspan (by simp [hc])
  · obtain ⟨-, rfl⟩ : _ = d ∧ plainReadFlag s.cfg a.toNat n (bsBacked s.cfg a n) = bk := by
      simpa using hresp
    have hpos := validSpan_pos hspan
    rw [plainReadFlag_iff_misses hpos, and_iff_right ((classify_outside_iff_misses hpos).1 hc)]
  · simp at hresp

/-! ### The frame of the operations that only read -/

/-- R47, R100, R101, R140: what an operation that only reads does beyond what every operation does: the
backing store and the output stream are left alone, and only `READ_RAW` touches views and buffers. -/
structure ReadFrame (i : Instr) (s t : State) : Prop where
  mem : t.mem = s.mem
  streams : StreamUse i s t
  noOutput : ∀ v, ¬ WritesStream s.cfg i v
  viewsKept : s.views ⊆ t.views
  viewsAndBuffers : (∀ a n, i ≠ .readRaw a n) → t.views = s.views ∧ t.buffers = s.buffers

theorem execReadByte_readFrame {a : Addr} {s t : State} (h : execReadByte a s = .next t) :
    ReadFrame (.readByte a) s t := by
  have hkept : t.mem = s.mem ∧ t.views = s.views ∧ t.buffers = s.buffers := by
    obtain ⟨-, b, f, -, rfl⟩ | ⟨-, -, rfl⟩ | ⟨-, -, -, rfl⟩ | ⟨-, -, -, rfl⟩ := execReadByte_next h <;>
      exact ⟨rfl, rfl, rfl⟩
  obtain ⟨hmem, hviews, hbuffers⟩ := hkept
  exact ⟨hmem, execReadByte_streamUse h, fun _ => id, hviews ▸ List.Subset.refl _,
    fun _ => ⟨hviews, hbuffers⟩⟩

/-- R29: the views a plain read leaves are the old ones and, for a live result, its own. -/
theorem State.subset_respondRaw_views (s : State) (v : View) (d : List Byte) (flag : Bool) :
    s.views ⊆ (s.respondRaw v d flag).views := by
  rw [State.respondRaw_views]
  split_ifs
  · exact List.subset_append_left _ _
  · exact List.Subset.refl _

theorem execReadRaw_readFrame {a : Addr} {n : Nat} {s t : State} (h : execReadRaw a n s = .next t) :
    ReadFrame (.readRaw a n) s t := by
  have hkept : t.mem = s.mem ∧ s.views ⊆ t.views := by
    obtain ⟨-, rfl⟩ | ⟨-, -, ⟨b, -, rfl⟩ | ⟨b, f, -, rfl⟩⟩ | ⟨-, -, rfl⟩ | ⟨-, -, -, rfl⟩ |
      ⟨-, -, -, rfl⟩ := execReadRaw_next h
    · exact ⟨rfl, List.Subset.refl _⟩
    · exact ⟨rfl, List.Subset.refl _⟩
    · exact ⟨rfl, List.Subset.refl _⟩
    · exact ⟨rfl, List.Subset.refl _⟩
    · exact ⟨State.respondRaw_mem .., State.subset_respondRaw_views ..⟩
    · exact ⟨rfl, List.Subset.refl _⟩
  obtain ⟨hmem, hviews⟩ := hkept
  exact ⟨hmem, execReadRaw_streamUse h, fun _ => id, hviews, fun hi => absurd rfl (hi a n)⟩

theorem execSize_readFrame {s t : State} (h : execSize s = .next t) : ReadFrame .size s t := by
  obtain rfl := Host.Outcome.next.inj h
  exact ⟨rfl, .none id (fun _ => id) ⟨rfl, rfl, rfl, rfl⟩, fun _ => id, List.Subset.refl _,
    fun _ => ⟨rfl, rfl⟩⟩

theorem StreamUse.output_unchanged {i : Instr} {s t : State} (h : StreamUse i s t)
    (hw : ∀ v, ¬ WritesStream s.cfg i v) : t.out = s.out ∧ t.outp = s.outp := by
  cases h with
  | read _ hr => exact ⟨hr.out, hr.outp⟩
  | write v hi _ => exact absurd hi (hw v)
  | none _ _ hq => exact ⟨hq.out, hq.outp⟩

theorem StreamUse.noStreamCall {i : Instr} {s t : State} (h : StreamUse i s t)
    (hr : ¬ ReadsStream s.cfg i) (hw : ∀ v, ¬ WritesStream s.cfg i v) : NoStreamCall s t := by
  cases h with
  | read hi _ => exact absurd hi hr
  | write v hi _ => exact absurd hi (hw v)
  | none _ _ hq => exact hq

/-- R47: only the two reads at `STDIN_ADDR` read the input stream. -/
theorem not_readsStream_of_ne {c : Cfg} {i : Instr} (hbyte : i ≠ .readByte c.stdinAddr)
    (hraw : ∀ n, i ≠ .readRaw c.stdinAddr n) : ¬ ReadsStream c i := by
  cases i with
  | readByte a => exact fun ha => hbyte (congrArg Instr.readByte ha)
  | readRaw a n => exact fun ⟨_, ha⟩ => hraw n (congrArg (Instr.readRaw · n) ha)
  | writeByte v a => exact id
  | writeRaw d a => exact id
  | size => exact id

/-- Settles O23, from the frame of each of the three operations and what every operation keeps. -/
theorem readOperationsFrame : Obligations.ReadOperationsFrame := by
  intro i s t hi h
  have hframe : ReadFrame i s t := by
    obtain ⟨a, rfl⟩ | ⟨a, n, rfl⟩ | rfl := hi
    · exact execReadByte_readFrame h
    · exact execReadRaw_readFrame h
    · exact execSize_readFrame h
  obtain ⟨hmem, huse, hno, hviews, hplain⟩ := hframe
  obtain ⟨hout, houtp⟩ := huse.output_unchanged hno
  obtain ⟨hcfg, e, he⟩ := exec_keeps h
  obtain ⟨hport, hresp⟩ := exec_answersOnce h
  refine ⟨State.byteAt_of_mem hmem, hmem, hcfg, hout, houtp, hport, hplain, fun hbyte hraw => ?_,
    fun _ hv => hviews hv, ⟨e, he.symm⟩, hresp⟩
  obtain ⟨hcalls, hinp, -, -⟩ := huse.noStreamCall (not_readsStream_of_ne hbyte hraw) hno
  exact ⟨hinp, hcalls⟩

end Sys2Proof.Machine
end

section
/-! The write path of `43_write_path.md`: each case of `WRITE_BYTE` and `WRITE_RAW`, the frames, plain writes
and the stdin word. -/

namespace Sys2Proof.Machine

/-! ### The cases of `WRITE_BYTE` -/

theorem streamOut_of_no_fault {s : State} {v : Byte} {k : Bool} (h : s.nextWrite v = .returned k none) :
    streamOut v s = .ok () (s.afterWrite v k none) := by
  rw [streamOut, h]

theorem streamOut_of_fault {s : State} {v : Byte} {k : Bool} {f : FaultValue}
    (h : s.nextWrite v = .returned k (some f)) : streamOut v s = .fault f (s.afterWrite v k (some f)) := by
  rw [streamOut, h]

/-- R120: the device byte emits. -/
theorem execWriteByte_of_device {v : Byte} {i : Addr} {s : State} {k : Bool} {f : Option FaultValue}
    (hi : i = s.cfg.stdoutAddr) (h : s.nextWrite v = .returned k f) :
    execWriteByte v i s = .next ((s.afterWrite v k f).respond (writeResponse f)) := by
  rw [execWriteByte, if_pos hi]
  cases f with
  | none => rw [streamOut_of_no_fault h]; rfl
  | some f => rw [streamOut_of_fault h]; rfl

/-- R120: the tail of the stdout word discards. -/
theorem execWriteByte_of_tail {i : Addr} {s : State} (h : InTail s.cfg.stdoutAddr.toNat i.toNat) (v : Byte) :
    execWriteByte v i s = .next (s.respond .done) := by
  have hne : i ≠ s.cfg.stdoutAddr := by
    rintro rfl
    exact absurd h.1 (lt_irrefl _)
  rw [execWriteByte, if_neg hne, if_pos h]

/-- R120: outside the stdout word the backing store's fault is the answer. -/
theorem execWriteByte_of_out_of_range {i : Addr} {s : State}
    (hword : ¬ InWord s.cfg.stdoutAddr.toNat i.toNat) (hr : s.cfg.memSize.toNat ≤ i.toNat) (v : Byte) :
    execWriteByte v i s =
      .next (s.reportFault (.backingStoreFault { location := i, numBytes := 1, wasRead := false })) := by
  obtain ⟨hfirst, htail⟩ := not_or.1 fun hin => hword ((inWord_iff ..).2 hin)
  rw [execWriteByte, if_neg hfirst, if_neg htail, (bsWriteOneByte_error_iff ..).2 ⟨hr, rfl⟩]

/-- Settles O15: the first two clauses are the device byte's, by the stream's answer. -/
theorem writeByteResult : Obligations.WriteByteResult := fun _ v _ =>
  ⟨fun hi _ h => execWriteByte_of_device hi h,
   fun hi _ _ h => execWriteByte_of_device hi h,
   fun htail => execWriteByte_of_tail htail v,
   execWriteByte_of_plain,
   fun hword hr => execWriteByte_of_out_of_range hword hr v⟩

/-! ### The cases of `WRITE_RAW` -/

theorem execWriteRaw_of_not_validSpan {d : List Byte} {a : Addr} (h : ¬ ValidSpan a.toNat d.length)
    (s : State) : execWriteRaw d a s =
      .next (s.reportFault (.accessViolation { location := a, numBytes := d.length, wasRead := false })) := by
  rw [execWriteRaw, if_pos h]

/-- R44: in a well-formed configuration no valid span crosses the stdout word's edge. -/
theorem CfgOk.not_crosses_stdout {c : Cfg} (hc : CfgOk c) {a n : Nat} (hspan : ValidSpan a n) :
    classify a n c.stdoutAddr.toNat ≠ .crossesBoundary :=
  classify_ne_crosses_of_aligned hspan (hc.aligned (.inr rfl))

section
variable {d : List Byte} {a : Addr} {s : State}

/-- R121: a span that ends with the stdout word emits its last byte. -/
theorem execWriteRaw_of_emits {v : Byte} {k : Bool} {f : Option FaultValue} (hcfg : CfgOk s.cfg)
    (hspan : ValidSpan a.toNat d.length) (hend : a.toNat + d.length - 1 = s.cfg.stdoutAddr.toNat + 3)
    (hlast : d.getLast? = some v) (h : s.nextWrite v = .returned k f) :
    execWriteRaw d a s = .next ((s.afterWrite v k f).respond (writeResponse f)) := by
  rw [execWriteRaw, if_neg (not_not_intro hspan), if_neg (hcfg.not_crosses_stdout hspan), if_pos hend,
    lastByte_of_getLast? hlast]
  cases f with
  | none => rw [streamOut_of_no_fault h]; rfl
  | some f => rw [streamOut_of_fault h]; rfl

/-- R121: any other valid span goes to the backing store, whole. -/
theorem execWriteRaw_of_in_range (hcfg : CfgOk s.cfg) (hspan : ValidSpan a.toNat d.length)
    (hend : a.toNat + d.length - 1 ≠ s.cfg.stdoutAddr.toNat + 3)
    (hr : a.toNat + d.length ≤ s.cfg.memSize.toNat) :
    execWriteRaw d a s = .next ((s.putBytes a.toNat d).respond .done) :=
  execWriteRaw_of_plain hspan (hcfg.not_crosses_stdout hspan) hend hr

theorem execWriteRaw_of_out_of_range (hcfg : CfgOk s.cfg) (hspan : ValidSpan a.toNat d.length)
    (hend : a.toNat + d.length - 1 ≠ s.cfg.stdoutAddr.toNat + 3)
    (hr : s.cfg.memSize.toNat < a.toNat + d.length) :
    execWriteRaw d a s = .next (s.reportFault
      (.backingStoreFault { location := a, numBytes := d.length, wasRead := false })) := by
  rw [execWriteRaw, if_neg (not_not_intro hspan), if_neg (hcfg.not_crosses_stdout hspan), if_neg hend,
    (bsWriteRaw_error_iff ..).2 ⟨hr, rfl⟩]

end

/-- Settles O16: a clause is one way `WRITE_RAW` ends; a valid span of a well-formed configuration never
crosses, so the last byte alone decides between the stream and the backing store. -/
theorem writeRawResult : Obligations.WriteRawResult := fun s _ _ hcfg =>
  ⟨fun hbad => execWriteRaw_of_not_validSpan hbad s, fun hspan =>
    ⟨fun hend _ hlast =>
      ⟨fun _ h => execWriteRaw_of_emits hcfg hspan hend hlast h,
       fun _ _ h => execWriteRaw_of_emits hcfg hspan hend hlast h⟩,
     execWriteRaw_of_in_range hcfg hspan,
     execWriteRaw_of_out_of_range hcfg hspan⟩⟩

/-! ### The stdout word -/

/-- R9: an address inside the stdout word does not wrap. -/
theorem CfgOk.toNat_stdoutAddr_add {c : Cfg} (hc : CfgOk c) {o : Nat} (ho : o ≤ 3) :
    (c.stdoutAddr + BitVec.ofNat 32 o).toNat = c.stdoutAddr.toNat + o := by
  obtain ⟨-, ⟨-, hout⟩, -, -⟩ := hc
  rw [BitVec.toNat_add, BitVec.toNat_ofNat]
  omega

/-- R46: every byte of the backing store after a buffer is written. -/
theorem State.byteAt_putBytes (s : State) (a : Nat) (d : List Byte) (p : Nat) :
    (s.putBytes a d).byteAt p = if a ≤ p then (d[p - a]?).getD (s.byteAt p) else s.byteAt p := by
  by_cases hlo : a ≤ p
  swap
  · rw [if_neg hlo, State.byteAt_putBytes_outside (by omega)]
  rw [if_pos hlo]
  cases hk : d[p - a]? with
  | none =>
    rw [List.getElem?_eq_none_iff] at hk
    rw [State.byteAt_putBytes_outside (by omega), Option.getD_none]
  | some v =>
    have hput := State.byteAt_putBytes_of_getElem? s a hk
    rwa [Nat.add_sub_cancel' hlo] at hput

/-- R122: the spans inside the stdout word that end with it. -/
theorem emitting_span_of_stdout_word {c : Cfg} (hc : CfgOk c) {d : List Byte} {a : Addr} {w x y z : Byte}
    (h : (d = [w, x, y, z] ∧ a = c.stdoutAddr) ∨ (d = [y, z] ∧ a = c.stdoutAddr + 2#32) ∨
      (d = [z] ∧ a = c.stdoutAddr + 3#32)) :
    ValidSpan a.toNat d.length ∧ a.toNat + d.length - 1 = c.stdoutAddr.toNat + 3 ∧
      d.getLast? = some z := by
  have h0 := hc.aligned (.inr rfl)
  have h2 : (c.stdoutAddr + 2#32).toNat = _ := hc.toNat_stdoutAddr_add (o := 2) (by decide)
  have h3 : (c.stdoutAddr + 3#32).toNat = _ := hc.toNat_stdoutAddr_add (o := 3) (by decide)
  obtain ⟨rfl, rfl⟩ | ⟨rfl, rfl⟩ | ⟨rfl, rfl⟩ := h
  · exact ⟨.inr (.inr ⟨rfl, h0⟩), rfl, rfl⟩
  · exact ⟨.inr (.inl ⟨rfl, by omega⟩), by rw [h2]; rfl, rfl⟩
  · exact ⟨.inl rfl, by rw [h3]; rfl, rfl⟩

/-- R122: the other valid spans inside the stdout word, by data and offset. -/
theorem storing_span_of_stdout_word {b : Nat} (hb : b % 4 = 0) {d : List Byte} {o : Nat} {w x y : Byte}
    (h : (d = [w] ∧ o = 0) ∨ (d = [w, x] ∧ o = 0) ∨ (d = [x] ∧ o = 1) ∨ (d = [y] ∧ o = 2)) :
    ValidSpan (b + o) d.length ∧ o + d.length ≤ 3 := by
  obtain ⟨rfl, rfl⟩ | ⟨rfl, rfl⟩ | ⟨rfl, rfl⟩ | ⟨rfl, rfl⟩ := h
  · exact ⟨.inl rfl, by simp⟩
  · exact ⟨.inr (.inl ⟨rfl, by omega⟩), by simp⟩
  · exact ⟨.inl rfl, by simp⟩
  · exact ⟨.inl rfl, by simp⟩

/-- Settles O19: three of the spans end with the word and the other four before it. -/
theorem writeRawInsideStdoutWord : Obligations.WriteRawInsideStdoutWord := by
  rintro s _ w x y z hcfg rfl
  refine ⟨fun k h d a hrow => ?emits, fun d o hrow => ?stores⟩
  case emits =>
    obtain ⟨hspan, hend, hlast⟩ := emitting_span_of_stdout_word hcfg hrow
    exact ⟨_, execWriteRaw_of_emits hcfg hspan hend hlast h, rfl, rfl, rfl, rfl⟩
  case stores =>
    obtain ⟨hspan, hlen⟩ := storing_span_of_stdout_word (hcfg.aligned (.inr rfl)) hrow
    have haddr := hcfg.toNat_stdoutAddr_add (o := o) (by omega)
    rw [← haddr] at hspan ⊢
    have hend : (s.cfg.stdoutAddr + BitVec.ofNat 32 o).toNat + d.length - 1 ≠
        s.cfg.stdoutAddr.toNat + 3 := by omega
    refine ⟨fun hr => ⟨_, execWriteRaw_of_in_range hcfg hspan hend hr, rfl, rfl, rfl, fun p => ?_⟩,
      execWriteRaw_of_out_of_range hcfg hspan hend⟩
    rw [State.byteAt_respond, State.byteAt_putBytes]

/-- Settles O20: `WRITE_BYTE` tests the word's first byte, `WRITE_RAW` the word's last. -/
theorem writePropertiesAreOfWriteByte : Obligations.WritePropertiesAreOfWriteByte := by
  refine fun s v hcfg => ⟨fun h => ⟨_, execWriteByte_of_device rfl h, rfl, rfl⟩,
    fun i htail => execWriteByte_of_tail htail v, fun hr => ?rawAtFirst, fun h => ?rawAtLast⟩
  case rawAtFirst =>
    have hend : s.cfg.stdoutAddr.toNat + [v].length - 1 ≠ s.cfg.stdoutAddr.toNat + 3 := by simp
    refine ⟨_, execWriteRaw_of_in_range hcfg (.inl rfl) hend hr, ?_, rfl⟩
    rw [State.byteAt_respond]
    exact State.byteAt_putBytes_of_getElem? s _ (k := 0) rfl
  case rawAtLast =>
    have hlast : (s.cfg.stdoutAddr + 3#32).toNat = _ := hcfg.toNat_stdoutAddr_add (o := 3) le_rfl
    exact ⟨_, execWriteRaw_of_emits hcfg (.inl rfl) (by rw [hlast]; rfl) rfl h, rfl⟩

/-! ### The frames of the two writes -/

/-- R120, R121: what neither write touches, beyond what every operation keeps. -/
structure WriteFrame (s t : State) : Prop where
  inp : t.inp = s.inp
  views : t.views = s.views
  buffers : t.buffers = s.buffers

theorem execWriteByte_writeFrame {v : Byte} {i : Addr} {s t : State} (h : execWriteByte v i s = .next t) :
    WriteFrame s t := by
  obtain ⟨-, k, f, -, rfl⟩ | ⟨-, -, rfl⟩ | ⟨-, -, -, rfl⟩ | ⟨-, -, -, rfl⟩ := execWriteByte_next h <;>
    exact ⟨rfl, rfl, rfl⟩

theorem execWriteRaw_writeFrame {d : List Byte} {a : Addr} {s t : State} (h : execWriteRaw d a s = .next t) :
    WriteFrame s t := by
  obtain ⟨-, rfl⟩ | ⟨-, -, -, k, f, -, rfl⟩ | ⟨-, -, -, -, rfl⟩ | ⟨-, -, -, -, rfl⟩ :=
    execWriteRaw_next h <;> exact ⟨rfl, rfl, rfl⟩

/-- R120: `WRITE_BYTE` leaves the backing store alone, or puts its byte there from outside the stdout word. -/
theorem execWriteByte_mem {v : Byte} {i : Addr} {s t : State} (h : execWriteByte v i s = .next t) :
    t.mem = s.mem ∨ (¬ InWord s.cfg.stdoutAddr.toNat i.toNat ∧ i.toNat < s.cfg.memSize.toNat ∧
      t.mem = (s.putByte i.toNat v).mem) := by
  obtain ⟨-, k, f, -, rfl⟩ | ⟨-, -, rfl⟩ | ⟨hfirst, htail, hr, rfl⟩ | ⟨-, -, -, rfl⟩ :=
    execWriteByte_next h
  · exact .inl rfl
  · exact .inl rfl
  · exact .inr ⟨(inWord_iff ..).not.2 (not_or.2 ⟨hfirst, htail⟩), hr, rfl⟩
  · exact .inl rfl

/-- R121: `WRITE_RAW` leaves the backing store alone, or puts its whole buffer there. -/
theorem execWriteRaw_mem {d : List Byte} {a : Addr} {s t : State} (h : execWriteRaw d a s = .next t) :
    t.mem = s.mem ∨ (ValidSpan a.toNat d.length ∧
      a.toNat + d.length - 1 ≠ s.cfg.stdoutAddr.toNat + 3 ∧
      a.toNat + d.length ≤ s.cfg.memSize.toNat ∧ t.mem = (s.putBytes a.toNat d).mem) := by
  obtain ⟨-, rfl⟩ | ⟨-, -, -, k, f, -, rfl⟩ | ⟨hspan, -, hend, hr, rfl⟩ | ⟨-, -, -, -, rfl⟩ :=
    execWriteRaw_next h
  · exact .inl rfl
  · exact .inl rfl
  · exact .inr ⟨hspan, hend, hr, rfl⟩
  · exact .inl rfl

theorem execWriteByte_noStreamCall {v : Byte} {i : Addr} {s t : State} (hi : i ≠ s.cfg.stdoutAddr)
    (h : execWriteByte v i s = .next t) : NoStreamCall s t :=
  (execWriteByte_streamUse h).noStreamCall id fun _ hw => hi hw.1

/-- R121: in any configuration, the stream is called only for a span that ends with the stdout word. -/
theorem execWriteRaw_noStreamCall {d : List Byte} {a : Addr} {s t : State}
    (hend : a.toNat + d.length - 1 ≠ s.cfg.stdoutAddr.toNat + 3) (h : execWriteRaw d a s = .next t) :
    NoStreamCall s t := by
  obtain ⟨-, rfl⟩ | ⟨-, -, he, -⟩ | ⟨-, -, -, -, rfl⟩ | ⟨-, -, -, -, rfl⟩ := execWriteRaw_next h
  · exact ⟨rfl, rfl, rfl, rfl⟩
  · exact absurd he hend
  · exact ⟨rfl, rfl, rfl, rfl⟩
  · exact ⟨rfl, rfl, rfl, rfl⟩

/-- Settles O24: memory by `execWriteByte_mem`, the streams and the rest by their own frame lemmas. -/
theorem writeByteFrame : Obligations.WriteByteFrame := by
  intro v i s t h
  have hmem := execWriteByte_mem h
  obtain ⟨hinp, hviews, hbuffers⟩ := execWriteByte_writeFrame h
  obtain ⟨hport, hresp⟩ := exec_answersOnce h
  refine ⟨fun x hx => ?bytes, fun hno => ?untouched, fun hi => ?streams,
    (exec_keeps h).cfg, hinp, hviews, hbuffers, hport, hresp⟩
  case bytes =>
    obtain hsame | ⟨-, -, hput⟩ := hmem
    · exact State.byteAt_of_mem hsame x
    · rw [State.byteAt_of_mem hput, State.byteAt_putByte, if_neg hx]
  case untouched =>
    obtain hsame | ⟨hword, hr, -⟩ := hmem
    · exact hsame
    · exact absurd hno (not_or.2 ⟨hword, by omega⟩)
  case streams =>
    obtain ⟨hcalls, -, houtp, hout⟩ := execWriteByte_noStreamCall hi h
    exact ⟨hout, houtp, hcalls⟩

/-- Settles O25: memory by `execWriteRaw_mem`, the streams and the rest by their own frame lemmas. -/
theorem writeRawFrame : Obligations.WriteRawFrame := by
  intro d a s t h
  have hmem := execWriteRaw_mem h
  obtain ⟨hinp, hviews, hbuffers⟩ := execWriteRaw_writeFrame h
  obtain ⟨hport, hresp⟩ := exec_answersOnce h
  refine ⟨fun x hx => ?bytes, fun hno => ?untouched, fun hend => ?streams,
    (exec_keeps h).cfg, hinp, hviews, hbuffers, hport, hresp⟩
  case bytes =>
    obtain hsame | ⟨-, -, -, hput⟩ := hmem
    · exact State.byteAt_of_mem hsame x
    · rw [State.byteAt_of_mem hput, State.byteAt_putBytes_outside hx]
  case untouched =>
    obtain hsame | ⟨hspan, hend, hr, -⟩ := hmem
    · exact hsame
    · exact absurd hno (not_or.2 ⟨not_not_intro hspan, not_or.2 ⟨hend, by omega⟩⟩)
  case streams =>
    obtain ⟨hcalls, -, houtp, hout⟩ := execWriteRaw_noStreamCall hend h
    exact ⟨hout, houtp, hcalls⟩

/-! ### Plain writes -/

theorem SpanMisses.not_inWord_first {a n b : Nat} (hn : 0 < n) (h : SpanMisses a n b) : ¬ InWord b a :=
  h a le_rfl (by omega)

/-- A span that shares no byte with a device word does not end with it. -/
theorem SpanMisses.end_ne {a n b : Nat} (hn : 0 < n) (h : SpanMisses a n b) : a + n - 1 ≠ b + 3 :=
  fun he => h (a + n - 1) (by omega) (by omega) ⟨by omega, by omega⟩

theorem State.bytesAt_respond (s : State) (r : Response) (a n : Nat) :
    (s.respond r).bytesAt a n = s.bytesAt a n :=
  State.bytesAt_of_mem (s.respond_mem r) a n

/-- Settles O34: the writes are the backing store's, and a plain read of the span finds the buffer there. -/
theorem writeThenReadRoundTrip : Obligations.WriteThenReadRoundTrip := by
  intro s d a hcfg hspan hin hout
  have hpos := validSpan_pos hspan
  have hend := hout.end_ne hpos
  refine ⟨fun v => ?writeByte, ?writeRaw, fun hr => ?inRange, fun hr => ?outOfRange⟩
  case writeByte =>
    have hword := hout.not_inWord_first hpos
    rcases e : bsWriteOneByte s v a with f | t
    · obtain ⟨hr, rfl⟩ := (bsWriteOneByte_error_iff ..).1 e
      exact execWriteByte_of_out_of_range hword hr v
    · obtain ⟨hr, rfl⟩ := (bsWriteOneByte_ok_iff ..).1 e
      exact execWriteByte_of_plain hword hr
  case writeRaw =>
    rcases e : bsWriteRaw s d a with f | t
    · obtain ⟨hr, rfl⟩ := (bsWriteRaw_error_iff ..).1 e
      exact execWriteRaw_of_out_of_range hcfg hspan hend hr
    · obtain ⟨hr, rfl⟩ := (bsWriteRaw_ok_iff ..).1 e
      exact execWriteRaw_of_in_range hcfg hspan hend hr
  case inRange =>
    refine ⟨_, _, execWriteRaw_of_in_range hcfg hspan hend hr, rfl, execReadRaw_of_plain hspan hin hr, ?_⟩
    rw [State.respondRaw_responses, State.bytesAt_respond, State.bytesAt_putBytes,
      State.respond_cfg, State.putBytes_cfg, plainReadFlag_of_misses hpos hout]
  case outOfRange =>
    exact ⟨_, _, execWriteRaw_of_out_of_range hcfg hspan hend hr, rfl,
      execReadRaw_of_out_of_range hspan hin hr, rfl⟩

/-! ### The stdin word -/

/-- R9, R44: a valid span that starts in the stdin word shares no byte with the stdout word. -/
theorem CfgOk.misses_stdout_of_stdin {c : Cfg} (hc : CfgOk c) {a n : Nat} (hspan : ValidSpan a n)
    (ha : InWord c.stdinAddr.toNat a) : SpanMisses a n c.stdoutAddr.toNat := by
  have hinAligned := hc.aligned (.inl rfl)
  have houtAligned := hc.aligned (.inr rfl)
  obtain ⟨-, -, hne, -⟩ := hc
  have hdistinct : c.stdinAddr.toNat ≠ c.stdoutAddr.toNat := fun he => hne (BitVec.toNat_inj.1 he)
  intro x hlo hhi hx
  have hblock := validSpan_in_block hspan hlo hhi
  simp only [InWord] at ha hx
  omega

/-- Two runs of one operation whose known outcomes differ in memory alone do so whatever name the first
outcome goes by. -/
theorem next_withMem {f : State → Host.Outcome State Fault Refusal} {s t u : State} {m : Memory}
    (h : f s = .next t) (hs : f s = .next u)
    (hm : f { s with mem := m } = .next { u with mem := m }) :
    f { s with mem := m } = .next { t with mem := m } := by
  obtain rfl := Host.Outcome.next.inj (hs.symm.trans h)
  exact hm

/-- R190: `READ_BYTE` in the stdin word takes nothing from the backing store. -/
theorem execReadByte_shadows {a : Addr} {s t : State} (ha : InWord s.cfg.stdinAddr.toNat a.toNat)
    (h : execReadByte a s = .next t) (m : Memory) :
    execReadByte a { s with mem := m } = .next { t with mem := m } := by
  obtain hfirst | htail := (inWord_iff ..).1 ha
  · obtain ⟨-, b, f, hread, rfl⟩ | ⟨hne, -⟩ | ⟨hne, -⟩ | ⟨hne, -⟩ := execReadByte_next h
    · exact execReadByte_of_device hfirst hread
    all_goals exact absurd hfirst hne
  · exact next_withMem h (execReadByte_of_tail htail) (execReadByte_of_tail htail)

/-- R190: `READ_RAW` from the stdin word takes nothing from the backing store, whatever the length. -/
theorem execReadRaw_shadows {a : Addr} {n : Nat} {s t : State} (hcfg : CfgOk s.cfg)
    (ha : InWord s.cfg.stdinAddr.toNat a.toNat) (h : execReadRaw a n s = .next t) (m : Memory) :
    execReadRaw a n { s with mem := m } = .next { t with mem := m } := by
  by_cases hspan : ValidSpan a.toNat n
  swap
  · exact next_withMem h (execReadRaw_of_not_validSpan hspan s) (execReadRaw_of_not_validSpan hspan _)
  obtain hfirst | htail := (inWord_iff ..).1 ha
  · rcases hread : s.nextRead with ⟨b, _ | f⟩ | _
    · exact next_withMem h (execReadRaw_of_first hspan hfirst hread)
        (execReadRaw_of_first hspan hfirst hread)
    · exact next_withMem h (execReadRaw_of_first_fault hspan hfirst hread)
        (execReadRaw_of_first_fault hspan hfirst hread)
    · rw [execReadRaw_of_silent hread ⟨hspan, hfirst⟩] at h
      cases h
  · exact next_withMem h (execReadRaw_of_tail hcfg hspan htail) (execReadRaw_of_tail hcfg hspan htail)

/-- Settles O36: the writes test the stdout word only, and the reads test the stdin word first. -/
theorem stdinWordMemoryIsShadowed : Obligations.StdinWordMemoryIsShadowed := by
  refine fun s a hcfg ha => ⟨fun v hr => ?writeByte, fun d hspan hr => ?writeRaw,
    fun m t h => execReadByte_shadows ha h m, fun m n t h => execReadRaw_shadows hcfg ha h m⟩
  case writeByte =>
    have hword := (hcfg.misses_stdout_of_stdin (.inl rfl) ha).not_inWord_first Nat.one_pos
    refine ⟨_, execWriteByte_of_plain hword hr, ?_, rfl⟩
    rw [State.byteAt_respond, State.byteAt_putByte, if_pos rfl]
  case writeRaw =>
    have hend := (hcfg.misses_stdout_of_stdin hspan ha).end_ne (validSpan_pos hspan)
    refine ⟨_, execWriteRaw_of_in_range hcfg hspan hend hr, ?_, rfl⟩
    rw [State.bytesAt_respond, State.bytesAt_putBytes]

end Sys2Proof.Machine
end

section
/-! `SIZE` (44_size.md). -/

namespace Sys2Proof.Machine

/-- Settles O17: R140's operation is the response alone, with `MEM_SIZE` as the backing store gives it. -/
theorem sizeResult : Obligations.SizeResult := fun s =>
  calc exec .size s
    _ = execSize s := rfl
    _ = .next (s.respond (.size (bsSize s))) := rfl
    _ = .next { s with responses := s.responses ++ [.size s.cfg.memSize.toNat] } := rfl

end Sys2Proof.Machine
end

section
/-! The faults of `60_exceptions.md`: each cause of the fault table R154 with the state its fault leaves,
completion without a cause, and independence of the responses of earlier operations. -/

namespace Sys2Proof.Machine

/-! ### The causes of the fault table -/

/-- R154, R156: the fault `f` that the table gives operation `i` in `s`, and the state `u` that its response
is delivered in. -/
inductive FaultCause (i : Instr) (s : State) : BlockFault → State → Prop where
  | violation {info : AccessInfo} (h : MustViolate i info) : FaultCause i s (.accessViolation info) s
  | store {info : AccessInfo} (h : MustMissStore s.cfg i info) : FaultCause i s (.backingStoreFault info) s
  | input {b : Option Byte} {e : FaultValue} (hi : ReadsStream s.cfg i)
      (h : s.nextRead = .returned b (some e)) : FaultCause i s (.streamFault e) (s.afterRead b (some e))
  | output {v : Byte} {k : Bool} {e : FaultValue} (hi : WritesStream s.cfg i v)
      (h : s.nextWrite v = .returned k (some e)) :
      FaultCause i s (.streamFault e) (s.afterWrite v k (some e))

/-- R150 to R152: the table gives operation `i` no address fault in `s`, and a stream it calls answers
without a fault. -/
structure NoFaultCause (i : Instr) (s : State) : Prop where
  violates : ∀ info, ¬ MustViolate i info
  misses : ∀ info, ¬ MustMissStore s.cfg i info
  reads : ReadsStream s.cfg i → ∃ b, s.nextRead = .returned b none
  writes : ∀ v, WritesStream s.cfg i v → ∃ k, s.nextWrite v = .returned k none

section
variable {i : Instr} {s t : State}

theorem exec_of_mustViolate {info : AccessInfo} (h : MustViolate i info) :
    exec i s = .next (s.reportFault (.accessViolation info)) := by
  cases i with
  | readByte a => exact h.elim
  | readRaw a n =>
    obtain ⟨hbad, rfl⟩ := h
    exact execReadRaw_of_not_validSpan hbad s
  | writeByte v a => exact h.elim
  | writeRaw d a =>
    obtain ⟨hbad, rfl⟩ := h
    exact execWriteRaw_of_not_validSpan hbad s
  | size => exact h.elim

theorem exec_of_mustMissStore {info : AccessInfo} (hcfg : CfgOk s.cfg) (h : MustMissStore s.cfg i info) :
    exec i s = .next (s.reportFault (.backingStoreFault info)) := by
  cases i with
  | readByte a =>
    obtain ⟨hword, hr, rfl⟩ := h
    exact execReadByte_of_store_error hword ((bsReadOneByte_error_iff ..).2 ⟨hr, rfl⟩)
  | readRaw a n =>
    obtain ⟨hspan, hmiss, hr, rfl⟩ := h
    exact execReadRaw_of_out_of_range hspan hmiss hr
  | writeByte v a =>
    obtain ⟨hword, hr, rfl⟩ := h
    exact execWriteByte_of_out_of_range hword hr v
  | writeRaw d a =>
    obtain ⟨hspan, hend, hr, rfl⟩ := h
    exact execWriteRaw_of_out_of_range hcfg hspan hend hr
  | size => exact h.elim

theorem exec_of_input_fault {b : Option Byte} {e : FaultValue} (hi : ReadsStream s.cfg i)
    (h : s.nextRead = .returned b (some e)) :
    exec i s = .next ((s.afterRead b (some e)).reportFault (.streamFault e)) := by
  cases i with
  | readByte a => exact execReadByte_of_device hi h
  | readRaw a n =>
    obtain ⟨hspan, ha⟩ := hi
    exact execReadRaw_of_first_fault hspan ha h
  | writeByte v a => exact hi.elim
  | writeRaw d a => exact hi.elim
  | size => exact hi.elim

theorem exec_of_output_fault {v : Byte} {k : Bool} {e : FaultValue} (hcfg : CfgOk s.cfg)
    (hi : WritesStream s.cfg i v) (h : s.nextWrite v = .returned k (some e)) :
    exec i s = .next ((s.afterWrite v k (some e)).reportFault (.streamFault e)) := by
  cases i with
  | readByte a => exact hi.elim
  | readRaw a n => exact hi.elim
  | writeByte w a =>
    obtain ⟨ha, rfl⟩ := hi
    exact execWriteByte_of_device ha h
  | writeRaw d a =>
    obtain ⟨hspan, hend, hlast⟩ := hi
    exact execWriteRaw_of_emits hcfg hspan hend hlast h
  | size => exact hi.elim

/-- R154: a cause of the table always shows. -/
theorem FaultCause.exec_eq {f : BlockFault} {u : State} (hcfg : CfgOk s.cfg) (h : FaultCause i s f u) :
    exec i s = .next (u.reportFault f) := by
  cases h with
  | violation h => exact exec_of_mustViolate h
  | store h => exact exec_of_mustMissStore hcfg h
  | input hi h => exact exec_of_input_fault hi h
  | output hi h => exact exec_of_output_fault hcfg hi h

/-- A stream call delivers no response. -/
theorem FaultCause.responses {f : BlockFault} {u : State} (h : FaultCause i s f u) :
    u.responses = s.responses := by
  cases h <;> rfl

/-- An operation that completes has a cause for a fault or none: a stream it called has answered. -/
theorem exec_cause_or_none (hcfg : CfgOk s.cfg) (h : exec i s = .next t) :
    (∃ f u, FaultCause i s f u) ∨ NoFaultCause i s := by
  refine or_iff_not_imp_left.2 fun hno => ⟨fun _ hv => hno ⟨_, _, .violation hv⟩,
    fun _ hm => hno ⟨_, _, .store hm⟩, fun hi => ?reads, fun v hi => ?writes⟩
  case reads =>
    rcases hread : s.nextRead with ⟨b, _ | e⟩ | _
    · exact ⟨b, rfl⟩
    · exact absurd ⟨_, _, .input hi hread⟩ hno
    · simp [exec_of_silent_input hread hi] at h
  case writes =>
    rcases hwrite : s.nextWrite v with ⟨k, _ | e⟩ | _
    · exact ⟨k, rfl⟩
    · exact absurd ⟨_, _, .output hi hwrite⟩ hno
    · simp [exec_of_silent_output hcfg hwrite hi] at h

end

/-! ### Completion without a cause -/

/-- R65, R158: the operation completes and its response is no fault. -/
def CompletesWithoutFault (i : Instr) (s : State) : Prop :=
  ∃ t r, exec i s = .next t ∧ t.responses = s.responses ++ [r] ∧ isFaultResponse r = false

section
variable {s : State}

theorem readByte_completes_of_no_cause {a : Addr} (h : NoFaultCause (.readByte a) s) :
    CompletesWithoutFault (.readByte a) s := by
  by_cases hword : InWord s.cfg.stdinAddr.toNat a.toNat
  · obtain hfirst | htail := (inWord_iff ..).1 hword
    · obtain ⟨b, hread⟩ := h.reads hfirst
      exact ⟨_, _, execReadByte_of_device hfirst hread, rfl, rfl⟩
    · exact ⟨_, _, execReadByte_of_tail htail, rfl, rfl⟩
  · have hr : a.toNat < s.cfg.memSize.toNat := lt_of_not_ge fun hr => h.misses _ ⟨hword, hr, rfl⟩
    exact ⟨_, _, execReadByte_of_store_ok hword ((bsReadOneByte_ok_iff ..).2 ⟨hr, rfl⟩), rfl, rfl⟩

theorem readRaw_completes_of_no_cause {a : Addr} {n : Nat} (hcfg : CfgOk s.cfg)
    (h : NoFaultCause (.readRaw a n) s) : CompletesWithoutFault (.readRaw a n) s := by
  have hspan : ValidSpan a.toNat n := not_not.1 fun hbad => h.violates _ ⟨hbad, rfl⟩
  obtain hin | hmiss := validSpan_inside_or_misses hspan (hcfg.aligned (.inl rfl))
  · have hpos := validSpan_pos hspan
    obtain hfirst | htail := (inWord_iff ..).1 (hin a.toNat le_rfl (by omega))
    · obtain ⟨b, hread⟩ := h.reads ⟨hspan, hfirst⟩
      exact ⟨_, _, execReadRaw_of_first hspan hfirst hread, rfl, rfl⟩
    · exact ⟨_, _, execReadRaw_of_tail hcfg hspan htail, rfl, rfl⟩
  · have hr : a.toNat + n ≤ s.cfg.memSize.toNat :=
      le_of_not_gt fun hr => h.misses _ ⟨hspan, hmiss, hr, rfl⟩
    exact ⟨_, _, execReadRaw_of_plain hspan hmiss hr, State.respondRaw_responses .., rfl⟩

theorem writeByte_completes_of_no_cause {v : Byte} {a : Addr} (h : NoFaultCause (.writeByte v a) s) :
    CompletesWithoutFault (.writeByte v a) s := by
  by_cases hword : InWord s.cfg.stdoutAddr.toNat a.toNat
  · obtain hfirst | htail := (inWord_iff ..).1 hword
    · obtain ⟨k, hwrite⟩ := h.writes v ⟨hfirst, rfl⟩
      exact ⟨_, _, execWriteByte_of_device hfirst hwrite, rfl, rfl⟩
    · exact ⟨_, _, execWriteByte_of_tail htail v, rfl, rfl⟩
  · have hr : a.toNat < s.cfg.memSize.toNat := lt_of_not_ge fun hr => h.misses _ ⟨hword, hr, rfl⟩
    exact ⟨_, _, execWriteByte_of_plain hword hr, rfl, rfl⟩

theorem writeRaw_completes_of_no_cause {d : List Byte} {a : Addr} (hcfg : CfgOk s.cfg)
    (h : NoFaultCause (.writeRaw d a) s) : CompletesWithoutFault (.writeRaw d a) s := by
  have hspan : ValidSpan a.toNat d.length := not_not.1 fun hbad => h.violates _ ⟨hbad, rfl⟩
  by_cases hend : a.toNat + d.length - 1 = s.cfg.stdoutAddr.toNat + 3
  · have hlast := getLast?_of_validSpan hspan
    obtain ⟨k, hwrite⟩ := h.writes _ ⟨hspan, hend, hlast⟩
    exact ⟨_, _, execWriteRaw_of_emits hcfg hspan hend hlast hwrite, rfl, rfl⟩
  · have hr : a.toNat + d.length ≤ s.cfg.memSize.toNat :=
      le_of_not_gt fun hr => h.misses _ ⟨hspan, hend, hr, rfl⟩
    exact ⟨_, _, execWriteRaw_of_in_range hcfg hspan hend hr, rfl, rfl⟩

theorem exec_completes_of_no_cause {i : Instr} (hcfg : CfgOk s.cfg) (h : NoFaultCause i s) :
    CompletesWithoutFault i s := by
  cases i with
  | readByte a => exact readByte_completes_of_no_cause h
  | readRaw a n => exact readRaw_completes_of_no_cause hcfg h
  | writeByte v a => exact writeByte_completes_of_no_cause h
  | writeRaw d a => exact writeRaw_completes_of_no_cause hcfg h
  | size => exact ⟨_, _, rfl, rfl, rfl⟩

end

/-- Settles O31: what is left without a cause completes, and its response joins a history without faults. -/
theorem noFaultWithoutCause : Obligations.NoFaultWithoutCause := by
  intro i s hcfg hpast hno hread hwrite
  obtain ⟨t, r, h, hresp, hr⟩ := exec_completes_of_no_cause hcfg
    ⟨fun info => (hno info).1, fun info => (hno info).2, hread, hwrite⟩
  refine ⟨t, h, fun q hq => ?_⟩
  rw [hresp, List.mem_append, List.mem_singleton] at hq
  obtain hq | rfl := hq
  · exact hpast q hq
  · exact hr

/-! ### Faults and their causes -/

section
variable {i : Instr} {s t : State}

/-- R154, R156: a fault that is answered has its cause, and the cause says what state is left. -/
theorem exec_fault_has_cause {f : BlockFault} (hcfg : CfgOk s.cfg) (h : exec i s = .next t)
    (hresp : t.responses = s.responses ++ [.fault f]) :
    ∃ u, FaultCause i s f u ∧ t = u.reportFault f := by
  obtain ⟨g, u, hcause⟩ | hnone := exec_cause_or_none hcfg h
  · obtain rfl := Host.Outcome.next.inj ((hcause.exec_eq hcfg).symm.trans h)
    obtain rfl : g = f := by simpa [hcause.responses] using hresp
    exact ⟨u, hcause, rfl⟩
  · obtain ⟨t', r, h', hresp', hr⟩ := exec_completes_of_no_cause hcfg hnone
    obtain rfl := Host.Outcome.next.inj (h'.symm.trans h)
    obtain rfl : r = .fault f := by simpa using hresp'.symm.trans hresp
    cases hr

/-- R154: the faults of the table are the faults answered. -/
theorem exec_answers_fault_iff {r : Response} (hcfg : CfgOk s.cfg) (h : exec i s = .next t)
    (hresp : t.responses = s.responses ++ [r]) (f : BlockFault) :
    r = .fault f ↔ ∃ u, FaultCause i s f u := by
  constructor
  · rintro rfl
    obtain ⟨u, hcause, -⟩ := exec_fault_has_cause hcfg h hresp
    exact ⟨u, hcause⟩
  · rintro ⟨u, hcause⟩
    obtain rfl := Host.Outcome.next.inj ((hcause.exec_eq hcfg).symm.trans h)
    exact (by simpa [hcause.responses] using hresp : Response.fault f = r).symm

theorem faultCause_accessViolation_iff {info : AccessInfo} :
    (∃ u, FaultCause i s (.accessViolation info) u) ↔ MustViolate i info :=
  ⟨fun ⟨_, .violation h⟩ => h, fun h => ⟨_, .violation h⟩⟩

theorem faultCause_backingStoreFault_iff {info : AccessInfo} :
    (∃ u, FaultCause i s (.backingStoreFault info) u) ↔ MustMissStore s.cfg i info :=
  ⟨fun ⟨_, .store h⟩ => h, fun h => ⟨_, .store h⟩⟩

/-- R151: a stream fault comes from an operation that calls a stream. -/
theorem FaultCause.calls_stream {e : FaultValue} {u : State} (h : FaultCause i s (.streamFault e) u) :
    ReadsStream s.cfg i ∨ ∃ v, WritesStream s.cfg i v := by
  cases h with
  | input hi _ => exact .inl hi
  | output hi _ => exact .inr ⟨_, hi⟩

end

/-- Settles O27: the answered faults are those with a cause, and each column has its own causes. -/
theorem faultTable : Obligations.FaultTable := by
  intro i s t r hcfg h hresp
  have hiff := exec_answers_fault_iff hcfg h hresp
  refine ⟨fun info => (hiff _).trans faultCause_accessViolation_iff,
    fun info => (hiff _).trans faultCause_backingStoreFault_iff, fun f hr => ?_,
    fun b f hi hread => (hiff _).2 ⟨_, .input hi hread⟩,
    fun v k f hi hwrite => (hiff _).2 ⟨_, .output hi hwrite⟩⟩
  obtain ⟨u, hcause⟩ := (hiff _).1 hr
  exact hcause.calls_stream

/-- Settles O28: the cause of the fault says which state its response is delivered in. -/
theorem faultLeavesStateAlone : Obligations.FaultLeavesStateAlone := by
  intro i s t f hcfg h hresp
  obtain ⟨u, hcause, rfl⟩ := exec_fault_has_cause hcfg h hresp
  cases hcause with
  | violation _ | store _ =>
    exact ⟨fun _ _ => rfl, fun _ hf => (nomatch hf), fun _ _ hf => (nomatch hf)⟩
  | input hi hread =>
    refine ⟨fun _ hf => by simp at hf, fun e hf _ => ?_,
      fun _ v _ hw => absurd hw (not_writesStream_of_readsStream hi v)⟩
    cases hf
    exact ⟨_, hread, rfl⟩
  | output hi hwrite =>
    refine ⟨fun _ hf => by simp at hf,
      fun _ _ hr => absurd hi (not_writesStream_of_readsStream hr _), fun e v hf hw => ?_⟩
    cases hf
    obtain rfl := hi.unique hw
    exact ⟨_, hwrite, rfl⟩

/-! ### Independence of earlier responses: the cases by the classifier's tag, then each operation -/

/-- R158: the operation `f` takes `s` to `t` with one response more, and does the same, with the same
response, after any other history of responses. -/
def ForgetsHistory (f : State → Host.Outcome State Fault Refusal) (s t : State) : Prop :=
  ∀ history, ∃ r, t.responses = s.responses ++ [r] ∧
    f { s with responses := history } = .next { t with responses := history ++ [r] }

theorem State.respondRaw_withHistory (s : State) (v : View) (d : List Byte) (flag : Bool)
    (history : List Response) : State.respondRaw { s with responses := history } v d flag =
      { s.respondRaw v d flag with responses := history ++ [.raw d flag] } := by
  cases flag <;> rfl

/-- R101: in any configuration, a span turned away by size, alignment or crossing. -/
theorem execReadRaw_of_rejected {a : Addr} {n : Nat} {s : State}
    (h : ¬ ValidSpan a.toNat n ∨ classify a.toNat n s.cfg.stdinAddr.toNat = .crossesBoundary) :
    execReadRaw a n s =
      .next (s.reportFault (.accessViolation { location := a, numBytes := n, wasRead := true })) := by
  by_cases hspan : ValidSpan a.toNat n
  · rw [execReadRaw, if_neg (not_not_intro hspan), h.resolve_left (not_not_intro hspan)]
  · exact execReadRaw_of_not_validSpan hspan s

/-- R101: in any configuration, a span tagged as in the word's tail reads zeros. -/
theorem execReadRaw_of_later {a : Addr} {n : Nat} {s : State} (hspan : ValidSpan a.toNat n)
    (hc : classify a.toNat n s.cfg.stdinAddr.toNat = .laterBytesInBoundary) :
    execReadRaw a n s = .next (s.respondCopy (zeros n)) := by
  rw [execReadRaw, if_neg (not_not_intro hspan), hc]

/-- R121: in any configuration, a span turned away by size, alignment or crossing. -/
theorem execWriteRaw_of_rejected {d : List Byte} {a : Addr} {s : State}
    (h : ¬ ValidSpan a.toNat d.length ∨
      classify a.toNat d.length s.cfg.stdoutAddr.toNat = .crossesBoundary) :
    execWriteRaw d a s =
      .next (s.reportFault (.accessViolation { location := a, numBytes := d.length, wasRead := false })) := by
  by_cases hspan : ValidSpan a.toNat d.length
  · rw [execWriteRaw, if_neg (not_not_intro hspan), if_pos (h.resolve_left (not_not_intro hspan))]
  · exact execWriteRaw_of_not_validSpan hspan s

/-- R121: in any configuration, a span that is not turned away and ends with the stdout word emits. -/
theorem execWriteRaw_of_emitted {d : List Byte} {a : Addr} {s : State} {k : Bool} {f : Option FaultValue}
    (hspan : ValidSpan a.toNat d.length)
    (hcross : classify a.toNat d.length s.cfg.stdoutAddr.toNat ≠ .crossesBoundary)
    (hend : a.toNat + d.length - 1 = s.cfg.stdoutAddr.toNat + 3)
    (h : s.nextWrite (lastByte d) = .returned k f) :
    execWriteRaw d a s = .next ((s.afterWrite (lastByte d) k f).respond (writeResponse f)) := by
  rw [execWriteRaw, if_neg (not_not_intro hspan), if_neg hcross, if_pos hend]
  cases f with
  | none => rw [streamOut_of_no_fault h]; rfl
  | some f => rw [streamOut_of_fault h]; rfl

/-- R121: in any configuration, the backing store's fault is the answer of any other span. -/
theorem execWriteRaw_of_store_error {d : List Byte} {a : Addr} {s : State} {f : AccessInfo}
    (hspan : ValidSpan a.toNat d.length)
    (hcross : classify a.toNat d.length s.cfg.stdoutAddr.toNat ≠ .crossesBoundary)
    (hend : a.toNat + d.length - 1 ≠ s.cfg.stdoutAddr.toNat + 3) (h : bsWriteRaw s d a = .error f) :
    execWriteRaw d a s = .next (s.reportFault (.backingStoreFault f)) := by
  rw [execWriteRaw, if_neg (not_not_intro hspan), if_neg hcross, if_neg hend, h]

section
variable {s t : State}

theorem execReadByte_forgetsHistory {i : Addr} (h : execReadByte i s = .next t) :
    ForgetsHistory (execReadByte i) s t := by
  intro history
  obtain ⟨hi, b, f, hread, rfl⟩ | ⟨-, htail, rfl⟩ | ⟨hfirst, htail, hr, rfl⟩ | ⟨hfirst, htail, hr, rfl⟩ :=
    execReadByte_next h
  · exact ⟨_, rfl, execReadByte_of_device hi hread⟩
  · exact ⟨_, rfl, execReadByte_of_tail htail⟩
  · have hword := (inWord_iff ..).not.2 (not_or.2 ⟨hfirst, htail⟩)
    exact ⟨_, rfl, execReadByte_of_store_ok hword ((bsReadOneByte_ok_iff ..).2 ⟨hr, rfl⟩)⟩
  · have hword := (inWord_iff ..).not.2 (not_or.2 ⟨hfirst, htail⟩)
    exact ⟨_, rfl, execReadByte_of_store_error hword ((bsReadOneByte_error_iff ..).2 ⟨hr, rfl⟩)⟩

theorem execReadRaw_forgetsHistory {a : Addr} {n : Nat} (h : execReadRaw a n s = .next t) :
    ForgetsHistory (execReadRaw a n) s t := by
  intro history
  obtain ⟨hbad, rfl⟩ | ⟨hspan, hc, hstream⟩ | ⟨hspan, hc, rfl⟩ | ⟨hspan, hc, hr, rfl⟩ |
    ⟨hspan, hc, hr, rfl⟩ := execReadRaw_next h
  · exact ⟨_, rfl, execReadRaw_of_rejected hbad⟩
  · have ha := BitVec.toNat_inj.1 ((classify_first_iff_of_validSpan hspan).1 hc)
    obtain ⟨b, hread, rfl⟩ | ⟨b, f, hread, rfl⟩ := hstream
    · rw [zeros_set_first (validSpan_pos hspan)]
      exact ⟨_, rfl, execReadRaw_of_first hspan ha hread⟩
    · exact ⟨_, rfl, execReadRaw_of_first_fault hspan ha hread⟩
  · exact ⟨_, rfl, execReadRaw_of_later hspan hc⟩
  · have hmiss := (classify_outside_iff_misses (validSpan_pos hspan)).1 hc
    refine ⟨_, State.respondRaw_responses .., ?_⟩
    rw [← State.respondRaw_withHistory]
    exact execReadRaw_of_plain hspan hmiss hr
  · have hmiss := (classify_outside_iff_misses (validSpan_pos hspan)).1 hc
    exact ⟨_, rfl, execReadRaw_of_out_of_range hspan hmiss hr⟩

theorem execWriteByte_forgetsHistory {v : Byte} {i : Addr} (h : execWriteByte v i s = .next t) :
    ForgetsHistory (execWriteByte v i) s t := by
  intro history
  obtain ⟨hi, k, f, hwrite, rfl⟩ | ⟨-, htail, rfl⟩ | ⟨hfirst, htail, hr, rfl⟩ | ⟨hfirst, htail, hr, rfl⟩ :=
    execWriteByte_next h
  · exact ⟨_, rfl, execWriteByte_of_device hi hwrite⟩
  · exact ⟨_, rfl, execWriteByte_of_tail (s := { s with responses := history }) htail v⟩
  · have hword := (inWord_iff ..).not.2 (not_or.2 ⟨hfirst, htail⟩)
    exact ⟨_, rfl, execWriteByte_of_plain hword hr⟩
  · have hword := (inWord_iff ..).not.2 (not_or.2 ⟨hfirst, htail⟩)
    exact ⟨_, rfl, execWriteByte_of_out_of_range (s := { s with responses := history }) hword hr v⟩

theorem execWriteRaw_forgetsHistory {d : List Byte} {a : Addr} (h : execWriteRaw d a s = .next t) :
    ForgetsHistory (execWriteRaw d a) s t := by
  intro history
  obtain ⟨hbad, rfl⟩ | ⟨hspan, hcross, hend, k, f, hwrite, rfl⟩ | ⟨hspan, hcross, hend, hr, rfl⟩ |
    ⟨hspan, hcross, hend, hr, rfl⟩ := execWriteRaw_next h
  · exact ⟨_, rfl, execWriteRaw_of_rejected hbad⟩
  · exact ⟨_, rfl, execWriteRaw_of_emitted hspan hcross hend hwrite⟩
  · exact ⟨_, rfl, execWriteRaw_of_plain hspan hcross hend hr⟩
  · exact ⟨_, rfl, execWriteRaw_of_store_error hspan hcross hend ((bsWriteRaw_error_iff ..).2 ⟨hr, rfl⟩)⟩

theorem execSize_forgetsHistory (h : execSize s = .next t) : ForgetsHistory execSize s t := by
  intro history
  obtain rfl := Host.Outcome.next.inj h
  exact ⟨_, rfl, rfl⟩

end

/-- Settles O30: every way an operation ends is decided without the history, and adds one response to it. -/
theorem faultsAreNotRemembered : Obligations.FaultsAreNotRemembered := by
  intro i s t history h
  cases i with
  | readByte a => exact execReadByte_forgetsHistory h history
  | readRaw a n => exact execReadRaw_forgetsHistory h history
  | writeByte v a => exact execWriteByte_forgetsHistory h history
  | writeRaw d a => exact execWriteRaw_forgetsHistory h history
  | size => exact execSize_forgetsHistory h history

end Sys2Proof.Machine
end
